-- ==== Sys2Proof/Word.lean ====
section
/-! DEFINITION. The two widths of the machine: 32-bit values and 8-bit bytes (00_scope R9, R8). -/

namespace Sys2Proof

/-- A 32-bit architectural value, unsigned unless a rule reads it otherwise (R9). -/
abbrev Word := BitVec 32

/-- One byte of the data memory, a slot or context number, or a field of a command word (R9, R60). -/
abbrev Byte := BitVec 8

end Sys2Proof
end

