-- ==== Sys2Proof/Syntax.lean ====
section
/-! DEFINITION. The eight commands (30_encoding R66), one constructor for each row of the opcode table.
SLOT and ACC are numbers (R63, R64); `WellFormed` says which of them a command word can carry. -/

namespace Sys2Proof

/-- A decoded command. Operands other than SLOT and ACC stand in ARG0 to ARG4 (R65). -/
inductive Instr where
  /-- TBUILD s (R82). -/
  | tbuild (slot : Nat)
  /-- TREAD s (R83). -/
  | tread (slot : Nat)
  /-- DIGEST s (R109). -/
  | digest (slot : Nat)
  /-- ABIND a, s (R120). -/
  | abind (acc slot : Nat)
  /-- ARESET a (R121). -/
  | areset (acc : Nat)
  /-- AUPDATE a (R122). -/
  | aupdate (acc : Nat)
  /-- ADIGEST a (R123). -/
  | adigest (acc : Nat)
  /-- ADIGESTB a (R124). -/
  | adigestb (acc : Nat)
  deriving DecidableEq, Repr

/-- The operations of the opcode map (R66), without their fields. -/
inductive Op where
  | tbuild | tread | digest | abind | areset | aupdate | adigest | adigestb
  deriving DecidableEq, Repr

end Sys2Proof
end

