-- ==== Sys2Proof/WellFormed.lean ====
section
/-! DEFINITION. Which commands a command word can carry: each field is 8 bits wide (30_encoding R60). -/

namespace Sys2Proof

/-- A number that the 8-bit SLOT or ACC field holds (R63, R64: 0 to 255). -/
def fitsField (n : Nat) : Bool := n < 256

/-- Every field of the command fits its 8 bits (R60). Whether the block has such a slot or context
depends on NUM_SLOTS and NUM_ACC and is checked when the command runs (R63, R64). -/
def Instr.wf : Instr → Bool
  | .tbuild slot => fitsField slot
  | .tread slot => fitsField slot
  | .digest slot => fitsField slot
  | .abind acc slot => fitsField acc && fitsField slot
  | .areset acc => fitsField acc
  | .aupdate acc => fitsField acc
  | .adigest acc => fitsField acc
  | .adigestb acc => fitsField acc

end Sys2Proof
end

