-- ==== Sys2Proof/Decode.lean ====
section
/-! DEFINITION. Decoding a command word and encoding a command (30_encoding R60 to R69).

The decoder makes the checks of R68 that need the word alone. The check ACC < NUM_ACC and the check
that the ARG registers are written come after all of them in R68 and are made, in that order, by the
command's meaning (log 18). -/

namespace Sys2Proof

/-- OP of each operation (R66). -/
def Op.code : Op → Byte
  | .tbuild => 0x01#8
  | .tread => 0x02#8
  | .digest => 0x10#8
  | .abind => 0x20#8
  | .areset => 0x21#8
  | .aupdate => 0x22#8
  | .adigest => 0x23#8
  | .adigestb => 0x24#8

/-- The operation of an OP value; none where R67 reserves it. -/
def Op.ofCode (b : Byte) : Option Op :=
  if b = 0x01#8 then some .tbuild
  else if b = 0x02#8 then some .tread
  else if b = 0x10#8 then some .digest
  else if b = 0x20#8 then some .abind
  else if b = 0x21#8 then some .areset
  else if b = 0x22#8 then some .aupdate
  else if b = 0x23#8 then some .adigest
  else if b = 0x24#8 then some .adigestb
  else none

/-- usesSlot of R68. -/
def Op.usesSlot : Op → Bool
  | .tbuild | .tread | .digest | .abind => true
  | .areset | .aupdate | .adigest | .adigestb => false

/-- usesAcc of R68. -/
def Op.usesAcc : Op → Bool
  | .abind | .areset | .aupdate | .adigest | .adigestb => true
  | .tbuild | .tread | .digest => false

/-- The command of an operation with its SLOT and ACC fields (R66). -/
def Op.instr (slot acc : Nat) : Op → Instr
  | .tbuild => .tbuild slot
  | .tread => .tread slot
  | .digest => .digest slot
  | .abind => .abind acc slot
  | .areset => .areset acc
  | .aupdate => .aupdate acc
  | .adigest => .adigest acc
  | .adigestb => .adigestb acc

/-- The operation of a command. -/
def Instr.op : Instr → Op
  | .tbuild _ => .tbuild
  | .tread _ => .tread
  | .digest _ => .digest
  | .abind _ _ => .abind
  | .areset _ => .areset
  | .aupdate _ => .aupdate
  | .adigest _ => .adigest
  | .adigestb _ => .adigestb

/-- The SLOT field of a command, 0 where it uses none (R62). -/
def Instr.slotField : Instr → Nat
  | .tbuild slot | .tread slot | .digest slot | .abind _ slot => slot
  | .areset _ | .aupdate _ | .adigest _ | .adigestb _ => 0

/-- The ACC field of a command, 0 where it uses none (R62). -/
def Instr.accField : Instr → Nat
  | .abind acc _ | .areset acc | .aupdate acc | .adigest acc | .adigestb acc => acc
  | .tbuild _ | .tread _ | .digest _ => 0

/-- Why a word is no command. Each raises ILLEGAL_COMMAND (R145). -/
inductive DecodeError where
  /-- RSVD ≠ 0 (R61). -/
  | rsvdNonzero
  /-- OP is reserved (R67). -/
  | reservedOp
  /-- SLOT ≠ 0 in an operation that does not use it (R62). -/
  | unusedSlotNonzero
  /-- ACC ≠ 0 in an operation that does not use it (R62). -/
  | unusedAccNonzero
  deriving DecidableEq, Repr

/-- OP, bits 7:0 (R60). -/
def opField (w : Word) : Byte := w.extractLsb' 0 8

/-- SLOT, bits 15:8 (R60). -/
def slotField (w : Word) : Byte := w.extractLsb' 8 8

/-- ACC, bits 23:16 (R60). -/
def accField (w : Word) : Byte := w.extractLsb' 16 8

/-- RSVD, bits 31:24 (R60). -/
def rsvdField (w : Word) : Byte := w.extractLsb' 24 8

/-- decode of R68, up to the checks on the word itself. Total: a command or a named reason. -/
def decode (w : Word) : Except DecodeError Instr :=
  if rsvdField w ≠ 0#8 then .error .rsvdNonzero
  else match Op.ofCode (opField w) with
    | none => .error .reservedOp
    | some op =>
      if op.usesSlot = false ∧ slotField w ≠ 0#8 then .error .unusedSlotNonzero
      else if op.usesAcc = false ∧ accField w ≠ 0#8 then .error .unusedAccNonzero
      else .ok (op.instr (slotField w).toNat (accField w).toNat)

/-- The command word of a well-formed command: RSVD, ACC, SLOT, OP from the most significant byte
down (R60, R66). -/
def encode (i : Instr) : Word :=
  0#8 ++ BitVec.ofNat 8 i.accField ++ BitVec.ofNat 8 i.slotField ++ i.op.code

/-- What the decoder reads from a row of the opcode table whose bits are `w`. A command word is one
32-bit value with no byte order of its own (R60), so its bits are the value's bits (log 19). -/
def decodeTableWord (nbits w : Nat) : Option Instr :=
  if nbits ≤ 32 ∧ w < 2 ^ nbits then (decode (BitVec.ofNat 32 w)).toOption else none

end Sys2Proof
end

