-- ==== Sys2Proof/Config.lean ====
section
/-! DEFINITION. What the platform fixes (00_scope R8) and the free values. -/

namespace Sys2Proof

/-- The polynomial of the default table (R8: DEFAULT_POLY). -/
def Config.defaultPoly : Word := 0xEDB88320#32

/-- DESIGN CHOICE (log 7), safe: the values the spec calls a draw (R179, R180, R182) and the value of
an ARG register nothing has written (log 3). It has no body, so no proof can know any of them. The
argument is the number of the draw, `State.draws`. -/
opaque Config.freeWord : Nat → Word

/-- A run of data-memory addresses that exist: `size` bytes from `base`. -/
structure Region where
  base : Nat
  size : Nat
  deriving DecidableEq, Repr

/-- The OPEN parameters of R8, as arguments of the state after reset. MEM_ADMITS is given by the
regions (log 16): every predicate on 32-bit addresses is that of some finite list of regions. -/
structure Platform where
  numSlots : Nat
  numAcc : Nat
  regBase : Nat
  regions : List Region
  deriving DecidableEq, Repr

/-- The bounds R8 puts on the parameters. -/
abbrev Platform.Ok (p : Platform) : Prop :=
  2 ≤ p.numSlots ∧ p.numSlots ≤ 256 ∧ 1 ≤ p.numAcc ∧ p.numAcc ≤ 256

/-- DESIGN CHOICE (log 1), unsafe for a claim that rests on these numbers: the test platform of
95_test_vectors section 0, with a REG_BASE the model picks ("any" there). -/
def Platform.test : Platform :=
  { numSlots := 4, numAcc := 4, regBase := 0x40000000,
    regions := [⟨0, 0x10000⟩, ⟨0xFFFFFF00, 0x100⟩] }

end Sys2Proof
end

