-- ==== Sys2Proof/Machine/State.lean ====
section
/-! DEFINITION. The state of the block, of the data memory and of its host (10_state R39,
70_reset_and_hazards R189, R190), the reasons a step can stop, and the state after reset (R171). -/

namespace Sys2Proof.Machine

/-- Why a step stops. No command stops: an error of a command is a completion code (R141) and the
model faults of R159 are recorded in `State.faults`, after which the run goes on. -/
inductive Fault where
  /-- Raised by a host read or write of a data-memory byte that does not exist (R40: MEM_ADMITS is
  false there). Safe: the model stops where the platform does something the spec does not give
  (log 10). -/
  | noSuchAddress (a : Nat)
  deriving DecidableEq, Repr

/-- The host actions the model gives no meaning (R160). -/
inductive Refusal where
  /-- Raised by an arm of `exec` whose instruction has no meaning yet. There is none. Safe. -/
  | notModelled (mnemonic : String)
  /-- Raised by a host access that is no aligned 32-bit access at the window's offsets 0x00 to 0x1C
  (R38, R160; log 11). Safe. -/
  | badWindowAccess
  /-- Raised by a host write of ARG0 to ARG4 or CMD while BUSY = 1 (R181, R160). Safe. -/
  | writeWhileBusy
  /-- Raised by a host write to a data-memory byte that the command in flight uses (R53, R160). Safe. -/
  | memoryInUse
  /-- Raised by the reset input while BUSY = 1 (R183, R160). Safe. -/
  | resetWhileBusy
  deriving DecidableEq, Repr

/-- The two model faults of R159. They are recorded and stop nothing (log 4). -/
inductive ModelFault where
  /-- A command reads ARGi while ARGW[i] = 0 (R174). -/
  | unwrittenArg (i : Fin 5)
  /-- The host reads RESULT while RESW = 0 (R175). -/
  | unwrittenResult
  deriving DecidableEq, Repr

/-- A built lookup table: the polynomial and exactly 256 entries (R20, R24). -/
structure Table where
  poly : Word
  entries : Vector Word 256
  deriving DecidableEq, Repr

/-- An accumulator context (R26). -/
structure Context where
  seed : Word
  tsel : Byte
  deriving DecidableEq, Repr

/-- What the host can do in one access (R190). -/
inductive HostAction where
  /-- A load of `size` bytes at the platform address `addr` (R29, R38). -/
  | load (addr size : Nat)
  /-- A store of `size` bytes at the platform address `addr` (R29, R38). -/
  | store (addr size : Nat) (value : Word)
  /-- A read of one data-memory byte (R182, R190; log 23). -/
  | peek (a : Nat)
  /-- A write of one data-memory byte: "place data bytes" (R190; log 23). -/
  | place (a : Nat) (b : Byte)
  /-- The reset input (R170, R190). -/
  | reset
  deriving DecidableEq, Repr

/-- One entry of the host's coming actions. -/
inductive HostEvent where
  /-- One access. -/
  | act (a : HostAction)
  /-- An aligned 32-bit store of `w` to CMD, whatever REG_BASE is (log 26), and what the host does
  while the command runs, that is while BUSY = 1 (R178 to R183, R190; log 6). -/
  | cmd (w : Word) (during : List HostAction)
  deriving DecidableEq, Repr

/-- The data memory: the bytes that differ from what an unlisted address reads as, by address
(20_memory R40). The operations are in Machine/Memory.lean. -/
abbrev Memory := List Host.Cell

/-- The whole state: R39's tuple, the data memory, the platform's parameters, and the record of the
run (R189). -/
structure State where
  /-- Slots 1 to NUM_SLOTS - 1, in order: TVALID is "some", TPOLY and TENT are the table's (R20, R22;
  log 13). Slot 0 is a constant and is not stored (R21). -/
  custom : List (Option Table)
  /-- Contexts 0 to NUM_ACC - 1, in order: SEED and TSEL (R26). -/
  accs : List Context
  /-- ARG0 to ARG4 (R30). -/
  arg : Vector Word 5
  /-- ARGW[0..4]: written since reset (R30). -/
  argw : Vector Bool 5
  /-- RESULT (R32). -/
  result : Word
  /-- RESW: written since reset (R32). -/
  resw : Bool
  /-- STATUS.CODE (R33). -/
  code : BitVec 4
  /-- The command in flight (R37); STATUS.BUSY is 1 exactly while there is one (R33; log 12). -/
  inFlight : Option Word
  /-- The data memory, which the platform owns (R39, R40). -/
  mem : Memory
  /-- MEM_ADMITS: the data-memory addresses that exist (R8; log 16). -/
  regions : List Region
  /-- REG_BASE (R8, R29). -/
  regBase : Nat
  /-- The model faults recorded, oldest first (R159, R189; log 4). -/
  faults : List ModelFault
  /-- The host's coming actions, oldest first (R35, R190; log 5). -/
  pending : List HostEvent
  /-- What the host's loads have returned, newest first (R190; log 15). -/
  hostReads : List Word
  /-- How many free values have been drawn (R179, R180, R182; log 7). -/
  draws : Nat
  deriving DecidableEq, Repr

/-- The state after reset (R171) on a platform with the data bytes `mem` placed (R177, R189).
DESIGN CHOICE (log 2), unsafe: ARG and RESULT hold 0, which nothing reads while their marks are clear. -/
def State.resetOn (p : Platform) (mem : Memory) : State :=
  { custom := List.replicate (p.numSlots - 1) none
    accs := List.replicate p.numAcc ⟨0#32, 0#8⟩
    arg := Vector.replicate 5 0#32
    argw := Vector.replicate 5 false
    result := 0#32
    resw := false
    code := 0#4
    inFlight := none
    mem := mem
    regions := p.regions
    regBase := p.regBase
    faults := []
    pending := []
    hostReads := []
    draws := 0 }

/-- The state after reset (R171) on the test platform (log 1) with no data placed. -/
def State.reset : State := State.resetOn Platform.test []

end Sys2Proof.Machine
end

