-- ==== Sys2Proof/Machine/Flags.lean ====
section
/-! DEFINITION. STATUS and the completion codes (10_state R33, R34; 60_exceptions R140). The block has
no other flags (R34). -/

namespace Sys2Proof.Machine

/-- The completion codes that are errors (R140); OK is 0. -/
inductive Code where
  | illegalCommand
  | invalidTable
  | invalidRange
  | busError
  deriving DecidableEq, Repr

/-- code(E) (R140). -/
def Code.bits : Code → BitVec 4
  | .illegalCommand => 1#4
  | .invalidTable => 2#4
  | .invalidRange => 3#4
  | .busError => 4#4

/-- The code of success (R140). -/
def codeOk : BitVec 4 := 0#4

/-- STATUS.BUSY (R33; log 12). -/
def State.busy (s : State) : Bool := s.inFlight.isSome

/-- The STATUS word: CODE in 3:0, BUSY in 8, the other bits 0 (R33, I26). -/
def statusWord (code : BitVec 4) (busy : Bool) : Word :=
  code.setWidth 32 ||| (if busy then 0x100#32 else 0#32)

end Sys2Proof.Machine
end

