-- ==== Sys2Proof/Machine/Memory.lean ====
section
/-! DEFINITION. The data memory, byte by byte (20_memory R40, R44). A list of cells with strictly
rising addresses, none equal to what an unlisted address reads as. -/

namespace Sys2Proof.Machine

/-- DESIGN CHOICE (log 9), unsafe: what a byte nothing has written reads as. -/
def Memory.unlisted : Byte := 0#8

/-- MemRead(a, 1) (R11, R40). -/
def Memory.read : Memory → Nat → Byte
  | [], _ => Memory.unlisted
  | (k, v) :: rest, a => if a = k then v else Memory.read rest a

/-- The list without a cell for `a`. -/
def Memory.erase : Memory → Nat → Memory
  | [], _ => []
  | (k, v) :: rest, a => if a = k then rest else (k, v) :: Memory.erase rest a

/-- The list with the cell `(a, b)` in its place. -/
def Memory.insert : Memory → Nat → Byte → Memory
  | [], a, b => [(a, b)]
  | (k, v) :: rest, a, b =>
    if a < k then (a, b) :: (k, v) :: rest
    else if a = k then (a, b) :: rest
    else (k, v) :: Memory.insert rest a b

/-- MemWrite(a, 1, b) (R11, R40). -/
def Memory.write (m : Memory) (a : Nat) (b : Byte) : Memory :=
  if b = Memory.unlisted then m.erase a else m.insert a b

/-- Stores `bs` at ascending addresses from `a` (R47: the first byte at the lowest address). -/
def Memory.writeBytes (m : Memory) (a : Nat) : List Byte → Memory
  | [] => m
  | b :: bs => Memory.writeBytes (m.write a b) (a + 1) bs

/-- The bytes at `a`, `a + 1`, ..., `n` of them, each read once in ascending order (R45). -/
def Memory.readBytes (m : Memory) (a n : Nat) : List Byte :=
  (List.range n).map fun j => m.read (a + j)

/-- Every cell lies above `lo`, addresses rise strictly, and no cell reads as an unlisted one. -/
def Memory.wfFrom : Option Nat → Memory → Bool
  | _, [] => true
  | lo, (k, v) :: rest =>
    (match lo with
      | none => true
      | some b => decide (b < k)) && decide (v ≠ Memory.unlisted) && Memory.wfFrom (some k) rest

/-- The canonical form. -/
def Memory.wf (m : Memory) : Bool := Memory.wfFrom none m

end Sys2Proof.Machine
end

