-- ==== Sys2Proof/Machine/Ops.lean ====
section
/-! DEFINITION. The named operations over the stores and registers, and how a command ends: `raise`
(60_exceptions R141), `complete` (R142), a recorded model fault (R174). An error is not a trap (R150),
so `raise` is the whole of taking one and there is no return (R151). -/

namespace Sys2Proof.Machine

/-! ## The CRC tables (40_table_builder) -/

/-- f_p of R87: one step of build. -/
def divStep (p r : Word) : Word := if r.getLsbD 0 then (r >>> 1) ^^^ p else r >>> 1

/-- `n` steps of build. -/
def divSteps (p : Word) : Nat → Word → Word
  | 0, r => r
  | n + 1, r => divSteps p n (divStep p r)

/-- Entry `i` of build(p): eight steps from zext_32(i) (R80). -/
def tableEntry (p : Word) (i : Nat) : Word := divSteps p 8 (BitVec.ofNat 32 i)

/-- The entries of build(p), in index order. -/
def tableEntries (p : Word) : List Word := (List.range 256).map (tableEntry p)

/-- build(p) (R80). -/
def build (p : Word) : Vector Word 256 := ⟨⟨tableEntries p⟩, by simp [tableEntries]⟩

/-- The table TBUILD stores for `p` (R82). -/
def builtTable (p : Word) : Table := ⟨p, build p⟩

/-- The hardwired table of slot 0 (R21). -/
def defaultTable : Table := builtTable Config.defaultPoly

/-- T[b] for a byte index (R20). -/
def Table.at (t : Table) (b : Byte) : Word := t.entries[b.toNat]'b.isLt

/-! ## The slots (10_state R20 to R25) -/

/-- NUM_SLOTS (R8, R20). -/
def State.numSlots (s : State) : Nat := s.custom.length + 1

/-- The table of slot `n`: the constant of slot 0 (R21), a custom slot's table, or none where
TVALID[n] = 0 or n ≥ NUM_SLOTS. -/
def State.slot (s : State) (n : Nat) : Option Table :=
  if n = 0 then some defaultTable
  else match s.custom[n - 1]? with
    | some t => t
    | none => none

/-- TVALID[n] (R20). -/
def State.tvalid (s : State) (n : Nat) : Bool := (s.slot n).isSome

/-- Puts a table into custom slot `n`; slot 0 is not written by anything (R21, R22). -/
def State.setSlot (s : State) (n : Nat) (t : Table) : State :=
  { s with custom := if n = 0 then s.custom else s.custom.set (n - 1) (some t) }

/-! ## The contexts (10_state R26 to R28) -/

/-- NUM_ACC (R8, R26). -/
def State.numAcc (s : State) : Nat := s.accs.length

/-- Context `a` (R26); none where a ≥ NUM_ACC. -/
def State.context (s : State) (a : Nat) : Option Context := s.accs[a]?

/-- Writes context `a` (R26). -/
def State.setContext (s : State) (a : Nat) (c : Context) : State :=
  { s with accs := s.accs.set a c }

/-! ## The registers (10_state R30, R32) -/

/-- A host write of ARGi: the value, and ARGW[i] <- 1 (R30, R190). -/
def State.writeArg (s : State) (i : Fin 5) (v : Word) : State :=
  { s with arg := s.arg.set i v, argw := s.argw.set i true }

/-- RESULT <- v, which sets RESW (R32). -/
def State.setResult (s : State) (v : Word) : State := { s with result := v, resw := true }

/-- MEM_ADMITS(a), for addresses below 2^32 (R8, R40). -/
def State.admits (s : State) (a : Nat) : Bool :=
  decide (a < 2 ^ 32) && s.regions.any fun r => decide (r.base ≤ a) && decide (a < r.base + r.size)

/-- Stores bytes in the data memory at ascending addresses from `a` (R47). -/
def State.storeBytes (s : State) (a : Nat) (bs : List Byte) : State :=
  { s with mem := s.mem.writeBytes a bs }

/-! ## How a command ends (60_exceptions R141, R142; 70_reset_and_hazards R174) -/

/-- STATUS.CODE <- k and STATUS.BUSY <- 0. -/
def State.endWith (s : State) (k : BitVec 4) : State := { s with code := k, inFlight := none }

/-- complete (R142). -/
def State.complete (s : State) : State := s.endWith codeOk

/-- raise E (R141): nothing but STATUS changes. -/
def State.raise (s : State) (e : Code) : State := s.endWith e.bits

/-- The model fault UNWRITTEN_ARG(i) ends the command with no other effect (R174, R189): it is
recorded, BUSY returns to 0 and CODE stays (log 4). -/
def State.recordUnwrittenArg (s : State) (i : Fin 5) : State :=
  { s with faults := s.faults ++ [.unwrittenArg i], inFlight := none }

/-- What ends a command before its first write to state (R12). -/
inductive Stop where
  /-- raise E. -/
  | raise (e : Code)
  /-- The model fault UNWRITTEN_ARG(i). -/
  | unwritten (i : Fin 5)
  deriving DecidableEq, Repr

/-- Ends a command: a `Stop` leaves the state from before the command but for what R141 or R174 says;
otherwise the state with the command's writes completes (R12, R141, R142). -/
def State.finish (s : State) : Except Stop State → Host.Outcome State Fault Refusal
  | .ok t => .next t.complete
  | .error (.raise e) => .next (s.raise e)
  | .error (.unwritten i) => .next (s.recordUnwrittenArg i)

/-! ## Records of the run -/

/-- The host's load returns `v` (R190; log 15). -/
def State.gotRead (s : State) (v : Word) : State := { s with hostReads := v :: s.hostReads }

/-- The free value of the next draw (log 7). -/
def State.drawn (s : State) : Word := Config.freeWord s.draws

/-- Uses up one draw. -/
def State.advanceDraw (s : State) : State := { s with draws := s.draws + 1 }

/-- The model fault UNWRITTEN_RESULT: recorded, with no other effect (R175; log 4). -/
def State.recordUnwrittenResult (s : State) : State :=
  { s with faults := s.faults ++ [.unwrittenResult] }

end Sys2Proof.Machine
end

