-- ==== Sys2Proof/Machine/Operands.lean ====
section
/-! DEFINITION. Every operand form: SLOT and ACC (30_encoding R63, R64), the ARG registers (R65), and
the view of source bytes (20_memory R42, R43; 41_digest_engine R106 to R108). -/

namespace Sys2Proof.Machine

/-- The ARG registers each command reads, in order (the table of R65). -/
def argsRead : Instr → List (Fin 5)
  | .tbuild _ => [0]
  | .tread _ => [0]
  | .digest _ => [0, 1, 2, 3, 4]
  | .abind _ _ => []
  | .areset _ => []
  | .aupdate _ => [0, 1, 2, 3]
  | .adigest _ => []
  | .adigestb _ => [0]

/-- The first of `is` whose register nothing has written. -/
def State.firstUnwritten (s : State) : List (Fin 5) → Option (Fin 5)
  | [] => none
  | i :: is => if s.argw[i] = true then s.firstUnwritten is else some i

/-- The loop over argsRead(op) of R68. -/
def State.checkArgs (s : State) (i : Instr) : Except Stop Unit :=
  match s.firstUnwritten (argsRead i) with
  | none => .ok ()
  | some k => .error (.unwritten k)

/-- Context ACC, or ILLEGAL_COMMAND where ACC ≥ NUM_ACC (R64, R68). -/
def State.contextFor (s : State) (a : Nat) : Except Stop Context :=
  match s.context a with
  | some c => .ok c
  | none => .error (.raise .illegalCommand)

/-- tableFor(n) (R108): INVALID_TABLE where slot n holds no table. -/
def State.tableFor (s : State) (n : Nat) : Except Stop Table :=
  match s.slot n with
  | some t => .ok t
  | none => .error (.raise .invalidTable)

/-- ARGi as u32 (R65). -/
def State.argU (s : State) (i : Fin 5) : Nat := s.arg[i].toNat

/-- ARGi as s32: sint32 (R9, R65). -/
def State.argS (s : State) (i : Fin 5) : Int := s.arg[i].toInt

/-- checkRange(size, offset, length) holds (R106); the sum is exact. -/
def rangeOk (size offset length : Int) : Bool :=
  decide (0 ≤ size) && decide (0 ≤ offset) && decide (0 ≤ length) && decide (offset + length ≤ size)

/-- A run of data-memory addresses, `len` of them from `lo`; exact integers (R43). -/
structure Span where
  lo : Nat
  len : Nat
  deriving DecidableEq, Repr

/-- Address `a` is one of the span's. -/
def Span.has (sp : Span) (a : Nat) : Bool := decide (sp.lo ≤ a) && decide (a < sp.lo + sp.len)

/-- Every address of the span exists: below 2^32 and admitted (R43, R146). -/
def State.admitsSpan (s : State) (sp : Span) : Bool :=
  (List.range sp.len).all fun j => s.admits (sp.lo + j)

/-- The span, or BUS_ERROR where an address of it does not exist (R43, R124). -/
def State.checkSpan (s : State) (sp : Span) : Except Stop Span :=
  if s.admitsSpan sp then .ok sp else .error (.raise .busError)

/-- The checks of readView on ARG0 to ARG3 (R107): INVALID_RANGE, then BUS_ERROR, all before the first
byte is read. -/
def State.view (s : State) : Except Stop Span :=
  if rangeOk (s.argS 1) (s.argS 2) (s.argS 3) then
    s.checkSpan ⟨s.argU 0 + (s.argS 2).toNat, (s.argS 3).toNat⟩
  else .error (.raise .invalidRange)

/-- The bytes of a span, ascending, each read once (R45, R107). -/
def State.bytesOf (s : State) (sp : Span) : List Byte := s.mem.readBytes sp.lo sp.len

end Sys2Proof.Machine
end

