-- ==== Sys2Proof/Machine/DigestEngine.lean ====
section
/-! DEFINITION. The Digest Engine (41_digest_engine): the digest function and DIGEST. -/

namespace Sys2Proof.Machine

/-- The state after one byte (R103): (state >> 8) XOR T[(b XOR state) & 0xFF]. -/
def crcStep (t : Table) (state : Word) (b : Byte) : Word :=
  (state >>> 8) ^^^ t.at (b ^^^ state.extractLsb' 0 8)

/-- The loop of R100, step 3, over the bytes in sequence order (R105). -/
def crcLoop (t : Table) (state : Word) : List Byte → Word
  | [] => state
  | b :: bs => crcLoop t (crcStep t state b) bs

/-- digest_of(T, B, seed) (R100). -/
def digestOf (t : Table) (bytes : List Byte) (seed : Word) : Word :=
  if bytes = [] then seed else ~~~ (crcLoop t (~~~ seed) bytes)

/-- The checks of DIGEST and what they give: the table and the view (R109). -/
def digestChecks (slot : Nat) (s : State) : Except Stop (Table × Span) := do
  s.checkArgs (.digest slot)
  let t ← s.tableFor slot
  let sp ← s.view
  .ok (t, sp)

/-- DIGEST s (R109). -/
def execDigest (slot : Nat) (s : State) : Host.Outcome State Fault Refusal :=
  s.finish do
    let (t, sp) ← digestChecks slot s
    .ok (s.setResult (digestOf t (s.bytesOf sp) s.arg[4]))

end Sys2Proof.Machine
end

