-- ==== Sys2Proof/Machine/Accumulator.lean ====
section
/-! DEFINITION. The accumulator's commands (42_accumulator): ABIND, ARESET, AUPDATE, ADIGEST, ADIGESTB.
Each begins with the check ACC < NUM_ACC (30_encoding R64, R68). -/

namespace Sys2Proof.Machine

/-- ABIND a, s (R120). -/
def execAbind (acc slot : Nat) (s : State) : Host.Outcome State Fault Refusal :=
  s.finish do
    let _ ← s.contextFor acc
    s.checkArgs (.abind acc slot)
    let _ ← s.tableFor slot
    .ok (s.setContext acc ⟨0#32, BitVec.ofNat 8 slot⟩)

/-- ARESET a (R121): TSEL is kept. -/
def execAreset (acc : Nat) (s : State) : Host.Outcome State Fault Refusal :=
  s.finish do
    let c ← s.contextFor acc
    s.checkArgs (.areset acc)
    .ok (s.setContext acc { c with seed := 0#32 })

/-- The checks of AUPDATE and what they give: the context, its table and the view (R122). -/
def aupdateChecks (acc : Nat) (s : State) : Except Stop (Context × Table × Span) := do
  let c ← s.contextFor acc
  s.checkArgs (.aupdate acc)
  let t ← s.tableFor c.tsel.toNat
  let sp ← s.view
  .ok (c, t, sp)

/-- AUPDATE a (R122). -/
def execAupdate (acc : Nat) (s : State) : Host.Outcome State Fault Refusal :=
  s.finish do
    let (c, t, sp) ← aupdateChecks acc s
    .ok (s.setContext acc { c with seed := digestOf t (s.bytesOf sp) c.seed })

/-- ADIGEST a (R123). -/
def execAdigest (acc : Nat) (s : State) : Host.Outcome State Fault Refusal :=
  s.finish do
    let c ← s.contextFor acc
    s.checkArgs (.adigest acc)
    .ok (s.setResult c.seed)

/-- Byte k of a digest, d[8k+7:8k] (R47). -/
def digestByte (d : Word) (k : Nat) : Byte := d.extractLsb' (8 * k) 8

/-- The four bytes of a digest, least significant first (R47, R124). -/
def digestBytes (d : Word) : List Byte :=
  [digestByte d 0, digestByte d 1, digestByte d 2, digestByte d 3]

/-- The checks of ADIGESTB and what they give: the digest and the four destination bytes (R124). -/
def adigestbChecks (acc : Nat) (s : State) : Except Stop (Word × Span) := do
  let c ← s.contextFor acc
  s.checkArgs (.adigestb acc)
  let sp ← s.checkSpan ⟨s.argU 0, 4⟩
  .ok (c.seed, sp)

/-- ADIGESTB a (R124). -/
def execAdigestb (acc : Nat) (s : State) : Host.Outcome State Fault Refusal :=
  s.finish do
    let (d, sp) ← adigestbChecks acc s
    .ok (s.storeBytes sp.lo (digestBytes d))

end Sys2Proof.Machine
end

