-- ==== Sys2Proof/Machine/TableBuilder.lean ====
section
/-! DEFINITION. The Table Builder's commands (40_table_builder): TBUILD and TREAD. -/

namespace Sys2Proof.Machine

/-- TBUILD s (R82). -/
def execTbuild (slot : Nat) (s : State) : Host.Outcome State Fault Refusal :=
  s.finish do
    s.checkArgs (.tbuild slot)
    if slot = 0 ∨ slot ≥ s.numSlots then .error (.raise .illegalCommand)
    else if s.tvalid slot = true then .error (.raise .illegalCommand)
    else .ok (s.setSlot slot (builtTable s.arg[0]))

/-- TREAD s (R83). The index is not reduced. -/
def execTread (slot : Nat) (s : State) : Host.Outcome State Fault Refusal :=
  s.finish do
    s.checkArgs (.tread slot)
    let t ← s.tableFor slot
    if h : s.argU 0 < 256 then .ok (s.setResult (t.entries[s.argU 0]'h))
    else .error (.raise .invalidRange)

end Sys2Proof.Machine
end

