-- ==== Sys2Proof/Machine/Dispatch.lean ====
section
/-! DEFINITION. One arm for each command, each a call of its meaning. -/

namespace Sys2Proof.Machine

/-- Runs a decoded command to its completion (00_scope R12). -/
def exec (i : Instr) (s : State) : Host.Outcome State Fault Refusal :=
  match i with
  | .tbuild slot => Sys2Proof.Machine.execTbuild slot s
  | .tread slot => Sys2Proof.Machine.execTread slot s
  | .digest slot => Sys2Proof.Machine.execDigest slot s
  | .abind acc slot => Sys2Proof.Machine.execAbind acc slot s
  | .areset acc => Sys2Proof.Machine.execAreset acc s
  | .aupdate acc => Sys2Proof.Machine.execAupdate acc s
  | .adigest acc => Sys2Proof.Machine.execAdigest acc s
  | .adigestb acc => Sys2Proof.Machine.execAdigestb acc s

end Sys2Proof.Machine
end

