-- ==== Sys2Proof/Machine/HostPort.lean ====
section
/-! DEFINITION. The host's side: the register window (10_state R29 to R38), the data memory seen by the
host, the reset input, and what each of them does while a command runs (70_reset_and_hazards R170 to
R183, R190). -/

namespace Sys2Proof.Machine

/-- The eight registers of the window (R29). -/
inductive Reg where
  | arg (i : Fin 5)
  | cmd
  | result
  | status
  deriving DecidableEq, Repr

/-- The offset of each register in the window (R29). -/
def Reg.offset : Reg → Nat
  | .arg i => 4 * i.val
  | .cmd => 0x14
  | .result => 0x18
  | .status => 0x1C

/-- The register at a byte offset of the window (R29); none at any other offset (R38). -/
def regOfOffset (o : Nat) : Option Reg :=
  if o = 0x00 then some (.arg 0)
  else if o = 0x04 then some (.arg 1)
  else if o = 0x08 then some (.arg 2)
  else if o = 0x0C then some (.arg 3)
  else if o = 0x10 then some (.arg 4)
  else if o = 0x14 then some .cmd
  else if o = 0x18 then some .result
  else if o = 0x1C then some .status
  else none

/-- The register that an access of `size` bytes at platform address `addr` reaches: an aligned 32-bit
access to one of the eight offsets, and nothing else (R38; log 11). -/
def State.regAt (s : State) (addr size : Nat) : Option Reg :=
  if size = 4 ∧ addr % 4 = 0 ∧ s.regBase ≤ addr then regOfOffset (addr - s.regBase) else none

/-- A host load of a register. ARG: the last value written (R30), a free value where there is none
(log 3). CMD: 0 (R31). RESULT: the model fault where nothing has written it (R175; log 8), a draw
while BUSY (R180), else its value (R32). STATUS: CODE is a draw while BUSY (R179). -/
def State.readReg (s : State) : Reg → State
  | .arg i => if s.argw[i] = true then s.gotRead s.arg[i] else (s.gotRead s.drawn).advanceDraw
  | .cmd => s.gotRead 0#32
  | .result =>
    if s.resw = false then s.recordUnwrittenResult
    else if s.busy = true then (s.gotRead s.drawn).advanceDraw
    else s.gotRead s.result
  | .status =>
    if s.busy = true then (s.gotRead (statusWord (s.drawn.extractLsb' 0 4) true)).advanceDraw
    else s.gotRead (statusWord s.code false)

/-- The data-memory bytes that a command started in `s` reads or writes (R53); none where one of its
checks fails, because it then touches no byte (log 14). -/
def usedSpan (i : Instr) (s : State) : Option Span :=
  match i with
  | .digest slot => (digestChecks slot s).toOption.map fun r => r.2
  | .aupdate acc => (aupdateChecks acc s).toOption.map fun r => r.2.2
  | .adigestb acc => (adigestbChecks acc s).toOption.map fun r => r.2
  | .tbuild _ | .tread _ | .abind _ _ | .areset _ | .adigest _ => none

/-- The command in flight, decoded. -/
def State.running (s : State) : Option Instr :=
  s.inFlight.bind fun w => (decode w).toOption

/-- The command in flight reads or writes the byte at `a` (R53). -/
def State.inUse (s : State) (a : Nat) : Bool :=
  match s.running.bind fun i => usedSpan i s with
  | some sp => sp.has a
  | none => false

/-- The byte that an ADIGESTB in flight is storing at `a` (R182). -/
def State.storing (s : State) (a : Nat) : Option Byte :=
  match s.running with
  | some (.adigestb acc) =>
    match adigestbChecks acc s with
    | .ok (d, sp) => if sp.has a = true then some (digestByte d (a - sp.lo)) else none
    | .error _ => none
  | _ => none

/-- A host read of the data-memory byte at `a`: the byte, or the old or the new byte, by a draw, where
an ADIGESTB in flight is storing one (R182). The host receives it zero-extended (log 15, 23). DESIGN
CHOICE (log 27), safe: a byte of the view of a DIGEST or AUPDATE in flight is read as it is stored;
R190 lists reads of bytes not in use only, and R160 refuses no read. -/
def State.peekByte (s : State) (a : Nat) : State :=
  match s.storing a with
  | none => s.gotRead ((s.mem.read a).setWidth 32)
  | some new =>
    (s.gotRead ((if s.drawn.getLsbD 0 then new else s.mem.read a).setWidth 32)).advanceDraw

/-- The reset input (R170, R171): the block's state; the data memory (R173), the platform's parameters
and the record of the run stay (log 17). -/
def State.applyReset (s : State) : State :=
  { s with
    custom := List.replicate s.custom.length none
    accs := List.replicate s.accs.length ⟨0#32, 0#8⟩
    arg := Vector.replicate 5 0#32
    argw := Vector.replicate 5 false
    result := 0#32
    resw := false
    code := 0#4
    inFlight := none }

/-- Runs a command word to its completion: the decoded command, or ILLEGAL_COMMAND (R68). -/
def runWord (w : Word) (s : State) : Host.Outcome State Fault Refusal :=
  match decode w with
  | .ok i => exec i s
  | .error _ => .next (s.raise .illegalCommand)

/-- The CMD write sets BUSY (R31, R178). -/
def State.start (s : State) (w : Word) : State := { s with inFlight := some w }

/-- A host store to a register: ARG and CMD are refused while BUSY (R181), RESULT and STATUS are
ignored at any time (R32, R33, R181). -/
def State.storeReg (s : State) (v : Word) : Reg → Host.Outcome State Fault Refusal
  | .arg i => if s.busy = true then .refused .writeWhileBusy else .next (s.writeArg i v)
  | .cmd => if s.busy = true then .refused .writeWhileBusy else runWord v (s.start v)
  | .result => .next s
  | .status => .next s

/-- One host action (R190), whether or not a command is in flight. -/
def hostAct (s : State) : HostAction → Host.Outcome State Fault Refusal
  | .load addr size =>
    match s.regAt addr size with
    | some r => .next (s.readReg r)
    | none => .refused .badWindowAccess
  | .store addr size v =>
    match s.regAt addr size with
    | some r => s.storeReg v r
    | none => .refused .badWindowAccess
  | .peek a => if s.admits a = true then .next (s.peekByte a) else .fault (.noSuchAddress a)
  | .place a b =>
    if s.admits a = true then
      if s.inUse a = true then .refused .memoryInUse else .next (s.storeBytes a [b])
    else .fault (.noSuchAddress a)
  | .reset => if s.busy = true then .refused .resetWhileBusy else .next s.applyReset

/-- What the host does while the command in flight runs, in order. -/
def hostActs (s : State) : List HostAction → Host.Outcome State Fault Refusal
  | [] => .next s
  | a :: rest =>
    match hostAct s a with
    | .next t => hostActs t rest
    | .fault f => .fault f
    | .refused r => .refused r

/-- One entry of the host's coming actions. A CMD write is one step to BUSY = 0 (R12, R178): BUSY is
set, the host does what it does meanwhile, the command runs to its completion (log 6). DESIGN CHOICE
(log 26), unsafe: `.cmd` is the aligned 32-bit store to CMD that R38 admits, taken as arrived whatever
REG_BASE is, also where REG_BASE is no multiple of 4 and no `.store` can make one (log 11). -/
def hostEvent (s : State) : HostEvent → Host.Outcome State Fault Refusal
  | .act a => hostAct s a
  | .cmd w during =>
    if s.busy = true then .refused .writeWhileBusy
    else match hostActs (s.start w) during with
      | .next t => runWord w t
      | .fault f => .fault f
      | .refused r => .refused r

/-- No host action is coming: the block keeps all its state while idle (R158; log 20); a command in
flight completes (R187; log 12). -/
def idle (s : State) : Host.Outcome State Fault Refusal :=
  match s.inFlight with
  | none => .next s
  | some w => runWord w s

end Sys2Proof.Machine
end

