-- ==== Sys2Proof/Machine/Step.lean ====
section
/-! DEFINITION. One step: the next action of the host, a command from its CMD write to BUSY = 0
(00_scope R12, 70_reset_and_hazards R178). -/

namespace Sys2Proof.Machine

/-- One step of the machine. -/
def step (s : State) : Host.Outcome State Fault Refusal :=
  match s.pending with
  | [] => idle s
  | e :: rest => hostEvent { s with pending := rest } e

/-- The state in which the very next step is the host's write of this word to CMD: the write stands
first among the host's coming actions, and no command is in flight, as R31 asks of it (log 5; of any
REG_BASE, log 26). -/
def State.withFetchWord (s : State) (_nbits w : Nat) : State :=
  { s with inFlight := none, pending := .cmd (BitVec.ofNat 32 w) [] :: s.pending }

end Sys2Proof.Machine
end

