-- ==== Sys2Proof/Safety.lean ====
section
/-! DEFINITION. What counts as a state the block can be in between steps, what a clean run's end is
(70_reset_and_hazards R189), and what an accumulator has absorbed (42_accumulator R125). -/

namespace Sys2Proof.Machine

/-- What holds between any two steps of a run from reset. -/
structure State.Inv (s : State) : Prop where
  /-- 2 ≤ NUM_SLOTS ≤ 256 (R8). -/
  slots : 2 ≤ s.numSlots ∧ s.numSlots ≤ 256
  /-- 1 ≤ NUM_ACC ≤ 256 (R8). -/
  contexts : 1 ≤ s.numAcc ∧ s.numAcc ≤ 256
  /-- Every valid slot's entries are build of its polynomial (R23). -/
  tables : ∀ n t, s.slot n = some t → t.entries = build t.poly
  /-- Every context's TSEL names a valid slot (R28). -/
  tsels : ∀ a c, s.context a = some c → s.tvalid c.tsel.toNat = true
  /-- The data memory is in its canonical form. -/
  memory : s.mem.wf = true
  /-- Only bytes that exist hold data (R40). -/
  mapped : ∀ c ∈ s.mem, s.admits c.1 = true
  /-- CODE is one of the five completion codes (R140, I25). -/
  code : s.code.toNat ≤ 4
  /-- No command is in flight between steps (R12, R178). -/
  idle : s.inFlight = none

/-- The host event is an access to the register window: a load, a store, a CMD write. A place or read of
a data byte and the reset input are none (R189, R190). DESIGN CHOICE (log 28), safe: a load or store
counts whatever its address is, one outside the window too, so a coming one keeps the run from ending
and, being refused (log 11), leaves it no end. -/
def HostEvent.toWindow : HostEvent → Bool
  | .act (.load _ _) => true
  | .act (.store _ _ _) => true
  | .act (.peek _) => false
  | .act (.place _ _) => false
  | .act .reset => false
  | .cmd _ _ => true

/-- The run has ended: the host has made its last window access, and BUSY = 0 (R189). What else the host
does afterwards is no part of the run. -/
abbrev State.ended (s : State) : Prop :=
  (∀ e ∈ s.pending, e.toWindow = false) ∧ s.busy = false

/-- The end of a run that claims may speak of: no model fault is recorded (R189). A refused action leaves
no end at all. -/
abbrev State.claimable (s : State) : Prop := s.ended ∧ s.faults = []

/-- The end state of the run from `s`: the first state in which it has ended (R189), within `n` steps;
none where a step stops before. -/
def runEnd : Nat → State → Option State
  | 0, s => if s.ended then some s else none
  | n + 1, s =>
    if s.ended then some s
    else match step s with
      | .next t => runEnd n t
      | .fault _ => none
      | .refused _ => none

/-- What context `a` has absorbed since it was last fresh, after command `i` run in `s` has ended in
`t`, where it had absorbed `b` before (R125): ABIND and ARESET of it empty it, an AUPDATE of it that
completed with OK appends its view, and nothing else counts. -/
def absorbed (a : Nat) (i : Instr) (s t : State) (b : List Byte) : List Byte :=
  match i with
  | .abind acc _ => if acc = a ∧ t.code = codeOk then [] else b
  | .areset acc => if acc = a ∧ t.code = codeOk then [] else b
  | .aupdate acc =>
    if acc = a then
      match aupdateChecks acc s with
      | .ok (_, _, sp) => b ++ s.bytesOf sp
      | .error _ => b
    else b
  | .tbuild _ | .tread _ | .digest _ | .adigest _ | .adigestb _ => b

/-- SEED[a] is the digest, with seed 0 and the table TSEL[a] names, of what the context has absorbed
(R125). -/
def State.seedIsDigest (s : State) (a : Nat) (b : List Byte) : Prop :=
  ∀ c, s.context a = some c → ∃ t, s.slot c.tsel.toNat = some t ∧ c.seed = digestOf t b 0#32

/-- The command that the step from `s` runs, and the state it runs in: BUSY set, and the host's actions
meanwhile done. None where the step runs no command. -/
def State.started (s : State) : Option (Instr × State) :=
  match s.pending with
  | [] => s.inFlight.bind fun w => (decode w).toOption.map fun i => (i, s)
  | .cmd w during :: rest =>
    if s.busy = true then none
    else match hostActs (State.start { s with pending := rest } w) during with
      | .next u => (decode w).toOption.map fun i => (i, u)
      | .fault _ => none
      | .refused _ => none
  | .act (.store addr size v) :: rest =>
    if s.busy = false ∧ s.regAt addr size = some .cmd then
      (decode v).toOption.map fun i => (i, State.start { s with pending := rest } v)
    else none
  | .act _ :: _ => none

/-- The step from `s` is the reset input. -/
def State.resets (s : State) : Bool := s.pending.head? == some (.act .reset)

/-- What context `a` has absorbed after the step from `s` to `t`, where it had absorbed `b` before:
reset, ABIND and ARESET empty it, a completed AUPDATE appends its view (R125). -/
def absorbedStep (a : Nat) (s t : State) (b : List Byte) : List Byte :=
  if s.resets = true then []
  else match s.started with
    | some (i, u) => absorbed a i u t b
    | none => b

/-! ## The conditions of the commands, in the rules' own terms -/

/-- The ARG registers `is` are written since reset (R30, R174). -/
abbrev State.written (s : State) (is : List (Fin 5)) : Prop := ∀ i ∈ is, s.argw[i] = true

/-- The range check of R106 passes, on sint32 of ARG1, ARG2, ARG3 with an exact sum. -/
abbrev State.rangeHolds (s : State) : Prop :=
  0 ≤ s.arg[1].toInt ∧ 0 ≤ s.arg[2].toInt ∧ 0 ≤ s.arg[3].toInt ∧
    s.arg[2].toInt + s.arg[3].toInt ≤ s.arg[1].toInt

/-- len(B) = sint32(length) (R42). -/
def State.viewLen (s : State) : Nat := s.arg[3].toInt.toNat

/-- The address of byte `j` of the view, base + sint32(offset) + j, an exact integer (R42, R43). -/
def State.viewAddr (s : State) (j : Nat) : Nat := s.arg[0].toNat + s.arg[2].toInt.toNat + j

/-- Every byte address of the view exists (R43). -/
abbrev State.viewExists (s : State) : Prop := ∀ j < s.viewLen, s.admits (s.viewAddr j) = true

/-- `bytes` is the byte sequence the view describes (R42). -/
abbrev State.isView (s : State) (bytes : List Byte) : Prop :=
  bytes.length = s.viewLen ∧ ∀ j < s.viewLen, bytes[j]? = some (s.mem.read (s.viewAddr j))

/-- The command run in `s` does not pass its checks: it ends with an error code or a recorded model
fault (R141, R174). -/
abbrev State.fails (s : State) (i : Instr) : Prop :=
  ∀ t, exec i s = .next t → ¬ (t.code = codeOk ∧ t.faults = s.faults)

/-- The command can use data memory (R41). -/
def usesMemory : Instr → Bool
  | .digest _ | .aupdate _ | .adigestb _ => true
  | .tbuild _ | .tread _ | .abind _ _ | .areset _ | .adigest _ => false

/-- The command names context `a` in its ACC field (R62, R64). -/
abbrev namesContext (i : Instr) (a : Nat) : Prop := i.op.usesAcc = true ∧ i.accField = a

/-! ## The division that the tables stand for -/

/-- One bit of reflected division (R4: least significant bit first, the register shifts right): the
register takes in the bit at its low end and shifts, and takes the polynomial where the bit shifted
out is 1. -/
def bitStep (p state : Word) (bit : Bool) : Word :=
  if (state.getLsbD 0 ^^ bit) = true then (state >>> 1) ^^^ p else state >>> 1

/-- The bits of a byte, least significant first (R46). -/
def bitsOf (b : Byte) : List Bool := (List.range 8).map fun k => b.getLsbD k

/-- The reflected CRC by division bit by bit, with no table, complemented on entry and exit (R4). -/
def bitwiseDigest (p : Word) (bytes : List Byte) (seed : Word) : Word :=
  ~~~ ((bytes.flatMap bitsOf).foldl (bitStep p) (~~~ seed))

end Sys2Proof.Machine
end

