-- ==== Sys2Proof/Certificates/Slice0/Obligations.lean ====
section
/-! DEFINITION. The statements for the provers, from the numbered rules of spec/. A log number names an
entry of notes/assumptions. -/

open Sys2Proof Sys2Proof.Machine

/-! ## Encoding (30_encoding) -/

/-- Decoding an encoded command gives it back, with every field at every value it can hold (R60, R66). -/
def Obligations.DecodeOfEncodeIsTheCommand : Prop :=
  ∀ i : Instr, i.wf = true → decode (encode i) = .ok i

/-- A word that decodes is the encoding of what it decodes to, and that command is well formed (R60,
R68): no bit of a command word is without a meaning. -/
def Obligations.EncodeOfDecodeIsTheWord : Prop :=
  ∀ (w : Word) (i : Instr), decode w = .ok i → i.wf = true ∧ encode i = w

/-- The words of the opcode table, with fields written out, decode to their commands (R66, the
examples of R82, R83, R109, R120 to R124). -/
def Obligations.SampleWordsDecode : Prop :=
  decode 0x00000101#32 = .ok (.tbuild 1) ∧ decode 0x00000002#32 = .ok (.tread 0) ∧
  decode 0x0000FF10#32 = .ok (.digest 255) ∧ decode 0x00010120#32 = .ok (.abind 1 1) ∧
  decode 0x00FF0021#32 = .ok (.areset 255) ∧ decode 0x00030022#32 = .ok (.aupdate 3) ∧
  decode 0x00040023#32 = .ok (.adigest 4) ∧ decode 0x00000024#32 = .ok (.adigestb 0)

/-- The decoder takes exactly the eight formats of R66: RSVD 0, one of the eight OP values, and 0 in a
field the operation does not use. -/
def Obligations.DecoderTakesExactlyTheEightFormats : Prop :=
  ∀ w : Word, (∃ i, decode w = .ok i) ↔
    rsvdField w = 0#8 ∧
    ((opField w = 0x01#8 ∧ accField w = 0#8) ∨ (opField w = 0x02#8 ∧ accField w = 0#8) ∨
      (opField w = 0x10#8 ∧ accField w = 0#8) ∨ opField w = 0x20#8 ∨
      (opField w = 0x21#8 ∧ slotField w = 0#8) ∨ (opField w = 0x22#8 ∧ slotField w = 0#8) ∨
      (opField w = 0x23#8 ∧ slotField w = 0#8) ∨ (opField w = 0x24#8 ∧ slotField w = 0#8))

/-- A command word with RSVD ≠ 0 (R61), with a reserved OP (R67), or with a field its operation does not
use not 0 (R62) raises ILLEGAL_COMMAND: run in any state, it ends with CODE 1 and BUSY 0, and nothing
else has changed. -/
def Obligations.WordsThatAreNoCommandRaiseIllegalCommand : Prop :=
  ∀ (s : State) (w : Word),
    (rsvdField w ≠ 0#8 ∨
      opField w = 0x00#8 ∨ (0x03#8 ≤ opField w ∧ opField w ≤ 0x0F#8) ∨
      (0x11#8 ≤ opField w ∧ opField w ≤ 0x1F#8) ∨ 0x25#8 ≤ opField w ∨
      ((opField w = 0x01#8 ∨ opField w = 0x02#8 ∨ opField w = 0x10#8) ∧ accField w ≠ 0#8) ∨
      ((opField w = 0x21#8 ∨ opField w = 0x22#8 ∨ opField w = 0x23#8 ∨ opField w = 0x24#8) ∧
        slotField w ≠ 0#8)) →
    runWord w s = .next { s with code := 1#4, inFlight := none }

/-! ## What a step is (00_scope R12, 70_reset_and_hazards R178) -/

/-- A step whose next host action is a CMD write of a word that decodes is that command, run with the
write taken off the coming actions and BUSY = 1 (R12, R31, R178); of a word that does not, it is
ILLEGAL_COMMAND (R68). A step whose next host action is any other access is that access, made with it
taken off the coming actions, whether or not a command is in flight (R190). The list of coming actions
is the model's form of the host (log 5), and that a CMD write in it runs its command also where REG_BASE
is no multiple of 4 is the model's choice (log 26). -/
def Obligations.StepRunsTheDecodedCommand : Prop :=
  (∀ (s : State) (w : Word) (rest : List HostEvent),
    s.pending = .cmd w [] :: rest → s.inFlight = none →
    (∀ i, decode w = .ok i → step s = exec i { s with pending := rest, inFlight := some w }) ∧
    (∀ e, decode w = .error e → step s = .next { s with pending := rest, code := 1#4 })) ∧
  (∀ (s : State) (a : HostAction) (rest : List HostEvent),
    s.pending = .act a :: rest → step s = hostAct { s with pending := rest } a)

/-- An aligned 32-bit host store at REG_BASE + 0x14 while BUSY = 0 issues the word stored (R29, R31,
R68): the command it decodes to, or ILLEGAL_COMMAND. -/
def Obligations.CmdStoreIssuesTheCommand : Prop :=
  ∀ (s : State) (v : Word) (rest : List HostEvent),
    s.pending = .act (.store (s.regBase + 0x14) 4 v) :: rest → s.inFlight = none →
    s.regBase % 4 = 0 →
    (∀ i, decode v = .ok i → step s = exec i { s with pending := rest, inFlight := some v }) ∧
    (∀ e, decode v = .error e → step s = .next { s with pending := rest, code := 1#4 })

/-- What the host does while BUSY = 1 is done, in order, with the command in flight, and then the
command runs, or raises ILLEGAL_COMMAND where the word is none (R68, R178, R190; that it runs after them
is the model's choice, log 6, and so is that it does where REG_BASE is no multiple of 4, log 26). A
refusal or a fault of one of them, the first included, is the outcome of the step. -/
def Obligations.CommandRunsAfterTheHostsActionsMeanwhile : Prop :=
  (∀ (s : State) (w : Word) (during : List HostAction) (rest : List HostEvent),
    s.pending = .cmd w during :: rest → s.inFlight = none →
    (∀ t, hostActs { s with pending := rest, inFlight := some w } during = .next t →
      (∀ i, decode w = .ok i → step s = exec i t) ∧
      (∀ e, decode w = .error e → step s = .next { t with code := 1#4, inFlight := none })) ∧
    (∀ r, hostActs { s with pending := rest, inFlight := some w } during = .refused r →
      step s = .refused r) ∧
    (∀ f, hostActs { s with pending := rest, inFlight := some w } during = .fault f →
      step s = .fault f)) ∧
  (∀ (s : State) (a : HostAction) (during : List HostAction),
    hostActs s [] = .next s ∧
    (∀ u, hostAct s a = .next u → hostActs s (a :: during) = hostActs u during) ∧
    (∀ r, hostAct s a = .refused r → hostActs s (a :: during) = .refused r) ∧
    (∀ f, hostAct s a = .fault f → hostActs s (a :: during) = .fault f))

/-- With no host action coming and BUSY = 0 the block keeps all its state (R158). -/
def Obligations.IdleBlockKeepsItsState : Prop :=
  ∀ s : State, s.pending = [] → s.inFlight = none → step s = .next s

/-! ## The table function (40_table_builder R80 to R87) -/

/-- build(p)[0] = 0 (R84) and build(p)[128] = p, so that two polynomials' tables differ there (R85). -/
def Obligations.BuildEntriesZeroAndOneHundredTwentyEight : Prop :=
  (∀ p : Word, (build p)[0] = 0#32 ∧ (build p)[128] = p) ∧
  (∀ p q : Word, p ≠ q → (build p)[128] ≠ (build q)[128])

/-- build is linear in its index (R86), so every entry is the XOR of those of the eight entries at 1,
2, 4, ..., 128 whose bit its index holds; entry 255 is the XOR of all eight, for the default polynomial
0x2D02EF8D. -/
def Obligations.BuildIsLinearInItsIndex : Prop :=
  (∀ (p : Word) (a b : Byte), (builtTable p).at (a ^^^ b) = (builtTable p).at a ^^^ (builtTable p).at b) ∧
  (∀ (p : Word) (b : Byte), (builtTable p).at b = ((List.range 8).map fun k =>
    if b.getLsbD k = true then (builtTable p).at (BitVec.ofNat 8 (2 ^ k)) else 0#32).foldl (· ^^^ ·) 0#32) ∧
  (∀ p : Word, (build p)[255] = (build p)[1] ^^^ (build p)[2] ^^^ (build p)[4] ^^^ (build p)[8] ^^^
    (build p)[16] ^^^ (build p)[32] ^^^ (build p)[64] ^^^ (build p)[128]) ∧
  (build 0xEDB88320#32)[255] = 0x2D02EF8D#32

/-- f_p(r) = (r >> 1) XOR (r[0] · p), and build(p)[2^k] = f_p^(7-k)(p) for k = 0..7; for the default
polynomial entry 64 is 0x76DC4190 and entry 1 is 0x77073096 (R87). -/
def Obligations.BuildPowerOfTwoEntries : Prop :=
  (∀ p r : Word, divStep p r = (r >>> 1) ^^^ (if r.getLsbD 0 = true then p else 0#32)) ∧
  (∀ (p : Word) (k : Nat), k ≤ 7 →
    (builtTable p).at (BitVec.ofNat 8 (2 ^ k)) = (divStep p)^[7 - k] p) ∧
  (build 0xEDB88320#32)[64] = 0x76DC4190#32 ∧ (build 0xEDB88320#32)[1] = 0x77073096#32

/-! ## The digest function (41_digest_engine R100 to R114) -/

/-- The empty sequence gives the seed (R101), and step 1 of R100 never changes a result (R111). -/
def Obligations.EmptySequenceGivesTheSeed : Prop :=
  (∀ (t : Table) (seed : Word), digestOf t [] seed = seed) ∧
  (∀ (t : Table) (bytes : List Byte) (seed : Word),
    digestOf t bytes seed = ~~~ (crcLoop t (~~~ seed) bytes))

/-- The chaining law, of two sequences and of any number of chunks of any sizes (R110). -/
def Obligations.ChainingLaw : Prop :=
  (∀ (t : Table) (seed : Word) (b1 b2 : List Byte),
    digestOf t b2 (digestOf t b1 seed) = digestOf t (b1 ++ b2) seed) ∧
  (∀ (t : Table) (seed : Word) (chunks : List (List Byte)),
    chunks.foldl (fun x b => digestOf t b x) seed = digestOf t chunks.flatten seed)

/-- The table-driven digest (R80, R100) equals the division of the bits themselves, least significant
bit first, with no table (R4, R46). -/
def Obligations.TableDigestIsBitwiseDivision : Prop :=
  ∀ (p : Word) (bytes : List Byte) (seed : Word),
    digestOf (builtTable p) bytes seed = bitwiseDigest p bytes seed

/-! ## The commands -/

/-- TBUILD (R82): its word; into an empty custom slot it builds the table of ARG0 and changes nothing
else but STATUS; for slot 0, a slot ≥ NUM_SLOTS or a slot that holds a table it raises
ILLEGAL_COMMAND and changes nothing else. -/
def Obligations.TbuildBuildsOnceIntoACustomSlot : Prop :=
  (∀ n < 256, encode (.tbuild n) = (BitVec.ofNat 32 n <<< 8) ||| 0x01#32) ∧
  (∀ (s : State) (n : Nat), s.written [0] →
    n ≠ 0 → n < s.numSlots → s.tvalid n = false →
    ∃ t, exec (.tbuild n) s = .next t ∧
      t = { s with custom := t.custom, code := 0#4, inFlight := none } ∧
      t.numSlots = s.numSlots ∧ t.slot n = some ⟨s.arg[0], build s.arg[0]⟩ ∧
      (∀ m, m ≠ n → t.slot m = s.slot m) ∧ ∀ a, t.mem.read a = s.mem.read a) ∧
  (∀ (s : State) (n : Nat), s.written [0] →
    (n = 0 ∨ s.numSlots ≤ n ∨ s.tvalid n = true) →
    exec (.tbuild n) s = .next { s with code := 1#4, inFlight := none })

/-- TREAD (R83): its word; RESULT takes the entry; INVALID_TABLE before INVALID_RANGE; nothing else
changes but STATUS. -/
def Obligations.TreadReadsOneEntry : Prop :=
  (∀ n < 256, encode (.tread n) = (BitVec.ofNat 32 n <<< 8) ||| 0x02#32) ∧
  (∀ (s : State) (n : Nat) (tb : Table) (b : Byte), s.written [0] →
    s.slot n = some tb → s.arg[0] = b.setWidth 32 →
    exec (.tread n) s =
      .next { s with result := tb.at b, resw := true, code := 0#4, inFlight := none }) ∧
  (∀ (s : State) (n : Nat), s.written [0] → (s.numSlots ≤ n ∨ s.tvalid n = false) →
    exec (.tread n) s = .next { s with code := 2#4, inFlight := none }) ∧
  (∀ (s : State) (n : Nat), s.written [0] → n < s.numSlots → s.tvalid n = true →
    255 < s.arg[0].toNat →
    exec (.tread n) s = .next { s with code := 3#4, inFlight := none })

/-- DIGEST (R109): its word; RESULT takes the digest of the view with the seed ARG4; INVALID_TABLE,
then INVALID_RANGE (R106), then BUS_ERROR (R107); nothing else changes but STATUS. -/
def Obligations.DigestDigestsTheView : Prop :=
  (∀ n < 256, encode (.digest n) = (BitVec.ofNat 32 n <<< 8) ||| 0x10#32) ∧
  (∀ (s : State) (n : Nat) (tb : Table) (bytes : List Byte), s.written [0, 1, 2, 3, 4] →
    s.slot n = some tb → s.rangeHolds → s.viewExists → s.isView bytes →
    exec (.digest n) s = .next { s with
      result := digestOf tb bytes s.arg[4], resw := true, code := 0#4, inFlight := none }) ∧
  (∀ (s : State) (n : Nat), s.written [0, 1, 2, 3, 4] →
    (s.numSlots ≤ n ∨ s.tvalid n = false) →
    exec (.digest n) s = .next { s with code := 2#4, inFlight := none }) ∧
  (∀ (s : State) (n : Nat), s.written [0, 1, 2, 3, 4] → n < s.numSlots → s.tvalid n = true →
    ¬ s.rangeHolds → exec (.digest n) s = .next { s with code := 3#4, inFlight := none }) ∧
  (∀ (s : State) (n : Nat), s.written [0, 1, 2, 3, 4] → n < s.numSlots → s.tvalid n = true →
    s.rangeHolds → ¬ s.viewExists →
    exec (.digest n) s = .next { s with code := 4#4, inFlight := none })

/-- ABIND (R120): its word; the context becomes fresh and bound to the slot; INVALID_TABLE where the
slot holds no table, ILLEGAL_COMMAND where ACC ≥ NUM_ACC (R64); nothing else changes but STATUS. -/
def Obligations.AbindMakesAFreshContext : Prop :=
  (∀ a < 256, ∀ n < 256, encode (.abind a n) =
    (BitVec.ofNat 32 a <<< 16) ||| (BitVec.ofNat 32 n <<< 8) ||| 0x20#32) ∧
  (∀ (s : State) (a n : Nat), a < s.numAcc → n < 256 → s.tvalid n = true →
    ∃ t c, exec (.abind a n) s = .next t ∧
      t = { s with accs := t.accs, code := 0#4, inFlight := none } ∧
      t.numAcc = s.numAcc ∧ t.context a = some c ∧ c.seed = 0#32 ∧ c.tsel.toNat = n ∧
      (∀ b, b ≠ a → t.context b = s.context b) ∧ ∀ x, t.mem.read x = s.mem.read x) ∧
  (∀ (s : State) (a n : Nat), a < s.numAcc → (s.numSlots ≤ n ∨ s.tvalid n = false) →
    exec (.abind a n) s = .next { s with code := 2#4, inFlight := none }) ∧
  (∀ (s : State) (a n : Nat), s.numAcc ≤ a →
    exec (.abind a n) s = .next { s with code := 1#4, inFlight := none })

/-- ARESET (R121): its word; SEED becomes 0 and TSEL is kept; ILLEGAL_COMMAND where ACC ≥ NUM_ACC
(R64); nothing else changes but STATUS. -/
def Obligations.AresetClearsTheSeedAndKeepsTheTable : Prop :=
  (∀ a < 256, encode (.areset a) = (BitVec.ofNat 32 a <<< 16) ||| 0x21#32) ∧
  (∀ (s : State) (a : Nat) (c : Context), s.context a = some c →
    ∃ t, exec (.areset a) s = .next t ∧
      t = { s with accs := t.accs, code := 0#4, inFlight := none } ∧
      t.numAcc = s.numAcc ∧ t.context a = some ⟨0#32, c.tsel⟩ ∧
      (∀ b, b ≠ a → t.context b = s.context b) ∧ ∀ x, t.mem.read x = s.mem.read x) ∧
  (∀ (s : State) (a : Nat), s.numAcc ≤ a →
    exec (.areset a) s = .next { s with code := 1#4, inFlight := none })

/-- AUPDATE (R122): its word; SEED takes the digest of the view with the old SEED and the context's
table; INVALID_TABLE, INVALID_RANGE, BUS_ERROR in that order, ILLEGAL_COMMAND before them where
ACC ≥ NUM_ACC (R64); nothing else changes but STATUS. -/
def Obligations.AupdateAbsorbsTheView : Prop :=
  (∀ a < 256, encode (.aupdate a) = (BitVec.ofNat 32 a <<< 16) ||| 0x22#32) ∧
  (∀ (s : State) (a : Nat) (c : Context) (tb : Table) (bytes : List Byte),
    s.written [0, 1, 2, 3] → s.context a = some c → s.slot c.tsel.toNat = some tb →
    s.rangeHolds → s.viewExists → s.isView bytes →
    ∃ t, exec (.aupdate a) s = .next t ∧
      t = { s with accs := t.accs, code := 0#4, inFlight := none } ∧
      t.numAcc = s.numAcc ∧ t.context a = some ⟨digestOf tb bytes c.seed, c.tsel⟩ ∧
      (∀ b, b ≠ a → t.context b = s.context b) ∧ ∀ x, t.mem.read x = s.mem.read x) ∧
  (∀ (s : State) (a : Nat) (c : Context), s.written [0, 1, 2, 3] → s.context a = some c →
    s.tvalid c.tsel.toNat = false →
    exec (.aupdate a) s = .next { s with code := 2#4, inFlight := none }) ∧
  (∀ (s : State) (a : Nat) (c : Context), s.written [0, 1, 2, 3] → s.context a = some c →
    s.tvalid c.tsel.toNat = true → ¬ s.rangeHolds →
    exec (.aupdate a) s = .next { s with code := 3#4, inFlight := none }) ∧
  (∀ (s : State) (a : Nat) (c : Context), s.written [0, 1, 2, 3] → s.context a = some c →
    s.tvalid c.tsel.toNat = true → s.rangeHolds → ¬ s.viewExists →
    exec (.aupdate a) s = .next { s with code := 4#4, inFlight := none }) ∧
  (∀ (s : State) (a : Nat), s.numAcc ≤ a →
    exec (.aupdate a) s = .next { s with code := 1#4, inFlight := none })

/-- ADIGEST (R123): its word; RESULT takes SEED; ILLEGAL_COMMAND where ACC ≥ NUM_ACC (R64); nothing
else changes but STATUS. -/
def Obligations.AdigestReadsTheSeed : Prop :=
  (∀ a < 256, encode (.adigest a) = (BitVec.ofNat 32 a <<< 16) ||| 0x23#32) ∧
  (∀ (s : State) (a : Nat) (c : Context), s.context a = some c →
    exec (.adigest a) s =
      .next { s with result := c.seed, resw := true, code := 0#4, inFlight := none }) ∧
  (∀ (s : State) (a : Nat), s.numAcc ≤ a →
    exec (.adigest a) s = .next { s with code := 1#4, inFlight := none })

/-- ADIGESTB (R124, R47): its word; byte k of the digest, d[8k+7:8k], is stored at ARG0 + k and no
other byte of memory changes; BUS_ERROR where one of the four does not exist, with no byte written;
ILLEGAL_COMMAND where ACC ≥ NUM_ACC (R64); nothing else changes but STATUS. -/
def Obligations.AdigestbStoresFourLittleEndianBytes : Prop :=
  (∀ a < 256, encode (.adigestb a) = (BitVec.ofNat 32 a <<< 16) ||| 0x24#32) ∧
  (∀ (s : State) (a : Nat) (c : Context), s.mem.wf = true → s.written [0] →
    s.context a = some c → (∀ k < 4, s.admits (s.arg[0].toNat + k) = true) →
    ∃ t, exec (.adigestb a) s = .next t ∧
      t = { s with mem := t.mem, code := 0#4, inFlight := none } ∧ t.mem.wf = true ∧
      (∀ k < 4, t.mem.read (s.arg[0].toNat + k) = c.seed.extractLsb' (8 * k) 8) ∧
      ∀ x, (x < s.arg[0].toNat ∨ s.arg[0].toNat + 4 ≤ x) → t.mem.read x = s.mem.read x) ∧
  (∀ (s : State) (a : Nat), s.written [0] → a < s.numAcc →
    (∃ k < 4, s.admits (s.arg[0].toNat + k) = false) →
    exec (.adigestb a) s = .next { s with code := 4#4, inFlight := none }) ∧
  (∀ (s : State) (a : Nat), s.numAcc ≤ a →
    exec (.adigestb a) s = .next { s with code := 1#4, inFlight := none })

/-! ## Laws of the accumulator (42_accumulator R125 to R131) -/

/-- After reset every context's seed is the digest of nothing (R125, R129, R171), on every platform. -/
def Obligations.FreshSeedIsTheDigestOfNothing : Prop :=
  ∀ (p : Platform) (m : Memory) (a : Nat), (State.resetOn p m).seedIsDigest a []

/-- At every command boundary, SEED[a] is the digest with seed 0 of the bytes absorbed since the last
reset, ABIND or ARESET of the context (R125): a step keeps it, whatever the step does. -/
def Obligations.SeedIsTheDigestOfWhatWasAbsorbed : Prop :=
  ∀ (s t : State) (a : Nat) (b : List Byte), s.numSlots ≤ 256 →
    s.seedIsDigest a b → step s = .next t → t.seedIsDigest a (absorbedStep a s t b)

/-- A command that names context a writes no other context and reads none: with another context
changed beforehand it ends in the same state, that context changed (R127). -/
def Obligations.CommandsTouchOnlyTheContextTheyName : Prop :=
  ∀ (i : Instr) (s t : State) (a b : Nat) (c : Context),
    namesContext i a → b ≠ a → exec i s = .next t →
    t.context b = s.context b ∧ exec i (s.setContext b c) = .next (t.setContext b c)

/-- A fresh context that absorbs a view ends with the RESULT of DIGEST over the same view with seed 0
and the same table (R112, R131). -/
def Obligations.AccumulatorAgreesWithTheOneShotDigest : Prop :=
  ∀ (s : State) (a : Nat) (tsel : Byte), s.written [0, 1, 2, 3, 4] → s.arg[4] = 0#32 →
    s.context a = some ⟨0#32, tsel⟩ → s.tvalid tsel.toNat = true → s.rangeHolds → s.viewExists →
    ∃ t u, exec (.aupdate a) s = .next t ∧ exec (.digest tsel.toNat) s = .next u ∧
      t.context a = some ⟨u.result, tsel⟩

/-- Once a command has ended its effects are visible to the next (R184): a table just built is what
TREAD reads, and a SEED just written is what ADIGEST reads. -/
def Obligations.EffectsAreVisibleToTheNextCommand : Prop :=
  (∀ (s : State) (n : Nat) (b : Byte), s.written [0] → n ≠ 0 → n < s.numSlots →
    s.tvalid n = false → ∃ t u, exec (.tbuild n) s = .next t ∧
      exec (.tread n) (t.writeArg 0 (b.setWidth 32)) = .next u ∧ u.code = 0#4 ∧
      u.result = (builtTable s.arg[0]).at b) ∧
  (∀ (s : State) (a : Nat) (c : Context) (tb : Table) (bytes : List Byte),
    s.written [0, 1, 2, 3] → s.context a = some c → s.slot c.tsel.toNat = some tb →
    s.rangeHolds → s.viewExists → s.isView bytes →
    ∃ t u, exec (.aupdate a) s = .next t ∧ exec (.adigest a) t = .next u ∧ u.code = 0#4 ∧
      u.result = digestOf tb bytes c.seed)

/-! ## Errors and model faults (60_exceptions, 70_reset_and_hazards R174, R175) -/

/-- Every command ends, with BUSY = 0, in one of three ways: OK; an error with code 1 to 4, and nothing
changed but STATUS (R141); the model fault of an unwritten ARG, and nothing else changed (R174; that
CODE stays is log 4). -/
def Obligations.EveryCommandEndsAndErrorsArePrecise : Prop :=
  ∀ (i : Instr) (s : State), ∃ t, exec i s = .next t ∧ t.inFlight = none ∧
    ((t.code = 0#4 ∧ t.faults = s.faults) ∨
      (∃ e : BitVec 4, 1 ≤ e.toNat ∧ e.toNat ≤ 4 ∧ t = { s with code := e, inFlight := none }) ∨
      (∃ k ∈ argsRead i, s.argw[k] = false ∧
        t = { s with faults := s.faults ++ [.unwrittenArg k], inFlight := none }))

/-- Which ARG registers each command reads (the table of R65): every value of one it does not read
gives the same end, but for that register. -/
def Obligations.CommandsReadOnlyTheirListedArgs : Prop :=
  ∀ (i : Instr) (s t : State) (k : Fin 5) (v : Word) (m : Bool),
    (match i with
      | .tbuild _ | .tread _ | .adigestb _ => k ≠ 0
      | .digest _ => False
      | .aupdate _ => k = 4
      | .abind _ _ | .areset _ | .adigest _ => True) →
    exec i s = .next t →
    exec i { s with arg := s.arg.set k v, argw := s.argw.set k m } =
      .next { t with arg := t.arg.set k v, argw := t.argw.set k m }

/-- A command that reads ARGk while ARGW[k] = 0, the ARGs it reads before it written, records
UNWRITTEN_ARG(k) and has no other effect (R174) but that it ends, BUSY = 0 (R189; log 4); a context
number out of range is found first (R68). -/
def Obligations.UnwrittenArgIsRecordedWithNoOtherEffect : Prop :=
  ∀ (i : Instr) (s : State) (k : Fin 5), (∀ a, namesContext i a → a < s.numAcc) →
    k ∈ argsRead i → s.argw[k] = false → (∀ j ∈ argsRead i, j < k → s.argw[j] = true) →
    exec i s = .next { s with faults := s.faults ++ [.unwrittenArg k], inFlight := none }

/-- No command writes ARG (R30), only DIGEST, TREAD and ADIGEST write RESULT and only with OK (R32),
only ADIGESTB writes the data memory (R41), only TBUILD writes a slot (R22), and no command touches
the platform's parameters or the host's records. -/
def Obligations.CommandsWriteOnlyWhatTheRulesSay : Prop :=
  ∀ (i : Instr) (s t : State), exec i s = .next t →
    t.arg = s.arg ∧ t.argw = s.argw ∧ t.regions = s.regions ∧ t.regBase = s.regBase ∧
    t.numSlots = s.numSlots ∧ t.numAcc = s.numAcc ∧ t.pending = s.pending ∧
    t.hostReads = s.hostReads ∧ t.draws = s.draws ∧
    ((∀ n, i ≠ .digest n) → (∀ n, i ≠ .tread n) → (∀ a, i ≠ .adigest a) →
      t.result = s.result ∧ t.resw = s.resw) ∧
    (t.code ≠ 0#4 → t.result = s.result ∧ t.resw = s.resw) ∧
    ((∀ a, i ≠ .adigestb a) → ∀ x, t.mem.read x = s.mem.read x) ∧
    ((∀ n, i ≠ .tbuild n) → ∀ n, t.slot n = s.slot n)

/-! ## Whole-machine rules -/

/-- A table, once built, stays until reset, and a slot comes to hold a table only by a TBUILD of it,
which leaves it the table of a polynomial (R22, R23). -/
def Obligations.TablesAreImmutableUntilReset : Prop :=
  ∀ s t : State, step s = .next t → s.resets = false →
    (∀ n tb, s.slot n = some tb → t.slot n = some tb) ∧
    (∀ n tb, s.slot n = none → t.slot n = some tb →
      (∃ u, s.started = some (.tbuild n, u)) ∧ tb.entries = build tb.poly)

/-- The state after reset, on every platform R8 allows with its data bytes placed in admitted memory,
meets the invariant (R171, R172). -/
def Obligations.ResetMeetsTheInvariant : Prop :=
  (∀ (p : Platform) (m : Memory), p.Ok → m.wf = true →
    (∀ c ∈ m, (State.resetOn p m).admits c.1 = true) → (State.resetOn p m).Inv) ∧
  State.reset.Inv

/-- Every step keeps the invariant: the parameters' bounds, build in every valid slot (R23), a valid
table for every context (R28), memory canonical and only where it exists (R40), CODE one of the five
codes (R140), BUSY = 0 between steps (R178). -/
def Obligations.StepKeepsTheInvariant : Prop :=
  ∀ s t : State, s.Inv → step s = .next t → t.Inv

/-- Where the invariant holds the table check of AUPDATE never fails (R28): AUPDATE never ends with
INVALID_TABLE. -/
def Obligations.AupdateNeverRaisesInvalidTable : Prop :=
  ∀ (s t : State) (a : Nat), (∀ b c, s.context b = some c → s.tvalid c.tsel.toNat = true) →
    exec (.aupdate a) s = .next t → t.code = 2#4 →
    s.code = 2#4 ∧ ∃ k ∈ argsRead (.aupdate a), s.argw[k] = false

/-! ## Reset (70_reset_and_hazards R170 to R173) -/

/-- After reset (R171): slot 0 holds the default table, the custom slots hold none, every context is
fresh on slot 0, no ARG and not RESULT is written, STATUS is 0, the data memory is what it was. -/
def Obligations.StateAfterReset : Prop :=
  ∀ (p : Platform) (m : Memory), p.Ok →
    (State.resetOn p m).numSlots = p.numSlots ∧ (State.resetOn p m).numAcc = p.numAcc ∧
    (State.resetOn p m).slot 0 = some ⟨0xEDB88320#32, build 0xEDB88320#32⟩ ∧
    (∀ n, n ≠ 0 → (State.resetOn p m).slot n = none) ∧
    (∀ a < p.numAcc, (State.resetOn p m).context a = some ⟨0#32, 0#8⟩) ∧
    (∀ i : Fin 5, (State.resetOn p m).argw[i] = false) ∧ (State.resetOn p m).resw = false ∧
    statusWord (State.resetOn p m).code (State.resetOn p m).busy = 0#32 ∧
    (State.resetOn p m).mem = m ∧ (State.resetOn p m).faults = []

/-- The reset input while BUSY = 0 empties the custom slots, makes every context fresh on slot 0,
clears the marks and STATUS, and does not change the data memory (R170, R171, R173); it is refused
while BUSY = 1 (R183). That the platform's parameters and the run's records stay is the model's
choice (log 17). -/
def Obligations.ResetInput : Prop :=
  (∀ (s : State) (rest : List HostEvent), s.pending = .act .reset :: rest → s.inFlight = none →
    ∃ t, step s = .next t ∧ t.slot 0 = some defaultTable ∧ (∀ n, n ≠ 0 → t.slot n = none) ∧
      t.numSlots = s.numSlots ∧ t.numAcc = s.numAcc ∧
      (∀ a < s.numAcc, t.context a = some ⟨0#32, 0#8⟩) ∧
      (∀ i : Fin 5, t.argw[i] = false) ∧ t.resw = false ∧ t.code = 0#4 ∧ t.inFlight = none ∧
      t = { s with pending := rest, custom := t.custom, accs := t.accs, arg := t.arg,
                   argw := t.argw, result := t.result, resw := t.resw, code := t.code } ∧
      ∀ x, t.mem.read x = s.mem.read x) ∧
  (∀ (s : State) (w : Word), s.inFlight = some w → hostAct s .reset = .refused .resetWhileBusy)

/-! ## The host's window (10_state R29 to R38) and its hazards (70_reset_and_hazards R178 to R183) -/

/-- A host write of ARGi while BUSY = 0 sets the register and its mark and nothing else (R30, R190),
and a host read returns the last value written (R30). A host read of an ARGi that nothing has written
returns some value and is no model fault, with BUSY 0 or 1: the model's choice (log 3, 7). No clause
rests on a free value. -/
def Obligations.ArgWriteAndRead : Prop :=
  (∀ (s : State) (i : Fin 5) (v : Word), s.regBase % 4 = 0 → s.inFlight = none →
    ∃ t, hostAct s (.store (s.regBase + 4 * i.val) 4 v) = .next t ∧ t.arg[i] = v ∧
      t.argw[i] = true ∧ (∀ j, j ≠ i → t.arg[j] = s.arg[j] ∧ t.argw[j] = s.argw[j]) ∧
      t = { s with arg := t.arg, argw := t.argw }) ∧
  (∀ (s : State) (i : Fin 5), s.regBase % 4 = 0 → s.argw[i] = true →
    hostAct s (.load (s.regBase + 4 * i.val) 4) =
      .next { s with hostReads := s.arg[i] :: s.hostReads }) ∧
  (∀ (s : State) (i : Fin 5), s.regBase % 4 = 0 → s.argw[i] = false →
    ∃ (v : Word) (t : State), hostAct s (.load (s.regBase + 4 * i.val) 4) = .next t ∧
      t = { s with hostReads := v :: s.hostReads, draws := t.draws })

/-- A host read of CMD returns 0 (R31). With BUSY = 0: a read of STATUS returns CODE in bits 3:0 and 0
elsewhere (R33); a read of RESULT returns it once something has written it (R32). A read of RESULT
that nothing has written records UNWRITTEN_RESULT and has no other effect (R175); that it does so with
BUSY = 1 too is the model's choice (log 8). -/
def Obligations.CmdResultAndStatusReads : Prop :=
  ∀ s : State, s.regBase % 4 = 0 →
    hostAct s (.load (s.regBase + 0x14) 4) = .next { s with hostReads := 0#32 :: s.hostReads } ∧
    (s.inFlight = none → ∃ v : Word, v.extractLsb' 0 4 = s.code ∧ v.toNat < 16 ∧
      hostAct s (.load (s.regBase + 0x1C) 4) = .next { s with hostReads := v :: s.hostReads }) ∧
    (s.inFlight = none → s.resw = true → hostAct s (.load (s.regBase + 0x18) 4) =
      .next { s with hostReads := s.result :: s.hostReads }) ∧
    (s.resw = false → hostAct s (.load (s.regBase + 0x18) 4) =
      .next { s with faults := s.faults ++ [.unwrittenResult] })

/-- Host writes to RESULT and STATUS are ignored at any time (R32, R33, R181). -/
def Obligations.ResultAndStatusWritesAreIgnored : Prop :=
  ∀ (s : State) (v : Word), s.regBase % 4 = 0 →
    hostAct s (.store (s.regBase + 0x18) 4 v) = .next s ∧
    hostAct s (.store (s.regBase + 0x1C) 4 v) = .next s

/-- The model refuses a narrower or wider access, a misaligned one, and one that is not at the offsets
0x00 to 0x1C (R38). That an access elsewhere on the platform is refused the same way is the model's
choice (log 11). -/
def Obligations.OtherWindowAccessesAreRefused : Prop :=
  ∀ (s : State) (addr size : Nat) (v : Word),
    (size ≠ 4 ∨ addr % 4 ≠ 0 ∨ addr < s.regBase ∨ (addr - s.regBase) % 4 ≠ 0 ∨
      s.regBase + 0x20 ≤ addr) →
    hostAct s (.load addr size) = .refused .badWindowAccess ∧
    hostAct s (.store addr size v) = .refused .badWindowAccess

/-- While BUSY = 1 the model refuses a host write of ARG0 to ARG4 or CMD (R181), through the window or
as the next CMD write. -/
def Obligations.ArgAndCmdWritesWhileBusyAreRefused : Prop :=
  (∀ (s : State) (w v : Word) (o : Nat), s.inFlight = some w → s.regBase % 4 = 0 → o ≤ 5 →
    hostAct s (.store (s.regBase + 4 * o) 4 v) = .refused .writeWhileBusy) ∧
  (∀ (s : State) (w v : Word) (during : List HostAction), s.inFlight = some w →
    hostEvent s (.cmd v during) = .refused .writeWhileBusy)

/-- Reads while BUSY = 1: STATUS reads BUSY = 1, reserved bits 0 and some CODE (R179); RESULT, once
written, reads some value (R180); ARG reads as written (R180), some value where nothing has written it
(log 3), and CMD as 0 (R180); nothing else changes but the count of draws (log 7). No clause rests on a
free value. -/
def Obligations.ReadsWhileBusy : Prop :=
  ∀ (s : State) (w : Word), s.inFlight = some w → s.regBase % 4 = 0 →
    (∃ (c : BitVec 4) (t : State), hostAct s (.load (s.regBase + 0x1C) 4) = .next t ∧
      t = { s with hostReads := (0x100#32 ||| c.setWidth 32) :: s.hostReads, draws := t.draws }) ∧
    (s.resw = true → ∃ (v : Word) (t : State),
      hostAct s (.load (s.regBase + 0x18) 4) = .next t ∧
      t = { s with hostReads := v :: s.hostReads, draws := t.draws }) ∧
    (∀ i : Fin 5, s.argw[i] = true → hostAct s (.load (s.regBase + 4 * i.val) 4) =
      .next { s with hostReads := s.arg[i] :: s.hostReads }) ∧
    (∀ i : Fin 5, s.argw[i] = false → ∃ (v : Word) (t : State),
      hostAct s (.load (s.regBase + 4 * i.val) 4) = .next t ∧
      t = { s with hostReads := v :: s.hostReads, draws := t.draws }) ∧
    hostAct s (.load (s.regBase + 0x14) 4) = .next { s with hostReads := 0#32 :: s.hostReads }

/-- While a DIGEST that passes its checks is in flight, a host write to a byte of its view is refused,
and one to any other byte that exists is made and changes that byte alone (R53). -/
def Obligations.MemoryWritesWhileDigestIsInFlight : Prop :=
  ∀ (s : State) (w : Word) (n : Nat) (a : Nat) (b : Byte), s.inFlight = some w →
    decode w = .ok (.digest n) → s.written [0, 1, 2, 3, 4] → s.tvalid n = true →
    s.rangeHolds → s.viewExists → s.mem.wf = true → s.admits a = true →
    ((∃ j < s.viewLen, a = s.viewAddr j) → hostAct s (.place a b) = .refused .memoryInUse) ∧
    ((∀ j < s.viewLen, a ≠ s.viewAddr j) → ∃ t, hostAct s (.place a b) = .next t ∧
      t = { s with mem := t.mem } ∧ t.mem.read a = b ∧ ∀ x, x ≠ a → t.mem.read x = s.mem.read x)

/-- While an AUPDATE that passes its checks is in flight, a host write to a byte of its view is refused,
and one to any other byte that exists is made and changes that byte alone (R53). -/
def Obligations.MemoryWritesWhileAupdateIsInFlight : Prop :=
  ∀ (s : State) (w : Word) (k : Nat) (c : Context) (a : Nat) (b : Byte), s.inFlight = some w →
    decode w = .ok (.aupdate k) → s.written [0, 1, 2, 3] → s.context k = some c →
    s.tvalid c.tsel.toNat = true →
    s.rangeHolds → s.viewExists → s.mem.wf = true → s.admits a = true →
    ((∃ j < s.viewLen, a = s.viewAddr j) → hostAct s (.place a b) = .refused .memoryInUse) ∧
    ((∀ j < s.viewLen, a ≠ s.viewAddr j) → ∃ t, hostAct s (.place a b) = .next t ∧
      t = { s with mem := t.mem } ∧ t.mem.read a = b ∧ ∀ x, x ≠ a → t.mem.read x = s.mem.read x)

/-- While an ADIGESTB that passes its checks is in flight, a host write to one of its four bytes is
refused, and one to any other byte that exists is made and changes that byte alone (R53); a host read of one of them returns its old or its new value (R182); a host read of
another byte that exists returns it. That the record holds a byte zero-extended is the model's choice
(log 15). -/
def Obligations.MemoryWhileAdigestbIsInFlight : Prop :=
  ∀ (s : State) (w : Word) (k : Nat) (c : Context) (a : Nat) (b : Byte), s.inFlight = some w →
    decode w = .ok (.adigestb k) → s.written [0] → s.context k = some c →
    (∀ j < 4, s.admits (s.arg[0].toNat + j) = true) → s.admits a = true →
    (∀ j < 4, a = s.arg[0].toNat + j → hostAct s (.place a b) = .refused .memoryInUse ∧
      ∃ (v : Byte) (t : State), (v = s.mem.read a ∨ v = c.seed.extractLsb' (8 * j) 8) ∧
        hostAct s (.peek a) = .next t ∧
        t = { s with hostReads := v.setWidth 32 :: s.hostReads, draws := t.draws }) ∧
    ((a < s.arg[0].toNat ∨ s.arg[0].toNat + 4 ≤ a) → hostAct s (.peek a) =
      .next { s with hostReads := (s.mem.read a).setWidth 32 :: s.hostReads }) ∧
    (s.mem.wf = true → (a < s.arg[0].toNat ∨ s.arg[0].toNat + 4 ≤ a) →
      ∃ t, hostAct s (.place a b) = .next t ∧ t = { s with mem := t.mem } ∧ t.mem.read a = b ∧
        ∀ x, x ≠ a → t.mem.read x = s.mem.read x)

/-- With BUSY = 0 the host places and reads data bytes where memory exists (R190): a read returns what the
byte holds, the stores of the commands before it included (R52); a byte placed reads back and no other
byte changes. That the record holds a byte zero-extended (log 15), and that the model stops where memory
does not exist (log 10), are its own choices. -/
def Obligations.HostDataMemoryAccess : Prop :=
  ∀ (s : State) (a : Nat) (b : Byte), s.inFlight = none →
    (s.admits a = true →
      hostAct s (.peek a) = .next { s with hostReads := (s.mem.read a).setWidth 32 :: s.hostReads }) ∧
    (s.mem.wf = true → s.admits a = true → ∃ t, hostAct s (.place a b) = .next t ∧
      t = { s with mem := t.mem } ∧ (∀ x, x ≠ a → t.mem.read x = s.mem.read x) ∧
      hostAct t (.peek a) = .next { t with hostReads := b.setWidth 32 :: t.hostReads }) ∧
    (s.admits a = false → hostAct s (.place a b) = .fault (.noSuchAddress a) ∧
      hostAct s (.peek a) = .fault (.noSuchAddress a))

/-- While the command in flight uses no byte of memory, a host write to any byte that exists is made and
changes that byte alone (R53): TBUILD, TREAD, ABIND, ARESET, ADIGEST; a word that is no command; a
command whose checks fail, which is the model's reading (log 14). -/
def Obligations.MemoryWritesWhileNoByteIsInUse : Prop :=
  ∀ (s : State) (w : Word) (a : Nat) (b : Byte), s.inFlight = some w →
    (∀ i, decode w = .ok i → usesMemory i = false ∨ s.fails i) →
    s.mem.wf = true → s.admits a = true →
    ∃ t, hostAct s (.place a b) = .next t ∧ t = { s with mem := t.mem } ∧ t.mem.read a = b ∧
      ∀ x, x ≠ a → t.mem.read x = s.mem.read x

/-- While the command in flight stores nothing (it is no ADIGESTB, or its checks fail), a host read of any
byte that exists returns it (R190), zero-extended in the record (log 15). That this holds of a byte of
the view of a DIGEST or AUPDATE is the model's choice (log 27). -/
def Obligations.MemoryReadsWhileNothingIsStored : Prop :=
  ∀ (s : State) (w : Word) (a : Nat), s.inFlight = some w →
    (∀ k, decode w = .ok (.adigestb k) → s.fails (.adigestb k)) → s.admits a = true →
    hostAct s (.peek a) = .next { s with hostReads := (s.mem.read a).setWidth 32 :: s.hostReads }

/-! ## The end of a run (70_reset_and_hazards R189) -/

/-- A run ends in the first state with BUSY = 0 and no window access coming (R189): there it is at its
end; while a window access is coming or a command is in flight it goes on with the next step, and a
refusal or a fault leaves it no end. That a run is the steps of a list of host actions is the model's
form (log 5), and that a load or store counts whatever its address is, is its choice (log 28). -/
def Obligations.RunEndsAtTheLastWindowAccess : Prop :=
  (∀ (s : State) (n : Nat), s.inFlight = none → (∀ e ∈ s.pending, e = .act .reset ∨
    (∃ a, e = .act (.peek a)) ∨ ∃ a b, e = .act (.place a b)) → runEnd n s = some s) ∧
  (∀ (s : State) (n : Nat), (s.inFlight ≠ none ∨ ∃ e ∈ s.pending, (∃ a k, e = .act (.load a k)) ∨
    (∃ a k v, e = .act (.store a k v)) ∨ ∃ w d, e = .cmd w d) →
    runEnd 0 s = none ∧ (∀ t, step s = .next t → runEnd (n + 1) s = runEnd n t) ∧
    (∀ r, step s = .refused r → runEnd (n + 1) s = none) ∧
    (∀ f, step s = .fault f → runEnd (n + 1) s = none))

/-- What the host does after its last window access, a reset, a place or a read of a data byte, moves
neither the run's end nor the state it ends in (R189). That a run is the steps of a list of host
actions is the model's form (log 5). -/
def Obligations.ActionsAfterTheLastWindowAccessDoNotMoveTheEnd : Prop :=
  ∀ (s : State) (n : Nat) (tail : List HostEvent), s.inFlight = none →
    (∀ e ∈ tail, e.toWindow = false) →
    runEnd n { s with pending := s.pending ++ tail } =
      (runEnd n s).map fun t => { t with pending := t.pending ++ tail }
end

