-- ==== Sys2Proof/Laws/Memory.lean ====
section
/-! SUPPORT. What the data-memory operations do: a read after a write, and the canonical form. -/

namespace Sys2Proof.Machine.Memory

@[simp] theorem read_nil (a : Nat) : read [] a = unlisted := rfl

theorem read_cons (k : Nat) (v : Byte) (rest : Memory) (a : Nat) :
    read ((k, v) :: rest) a = if a = k then v else read rest a := rfl

/-- Raising or dropping the lower bound of the canonical form where the first address allows it. -/
theorem wfFrom_weaken {lo lo' : Option Nat} {m : Memory} (h : wfFrom lo m = true)
    (hlo : ∀ b', lo' = some b' → ∀ c ∈ m, b' < c.1) : wfFrom lo' m = true := by
  cases m with
  | nil => rfl
  | cons c rest =>
    obtain ⟨k, v⟩ := c
    cases lo' with
    | none => simp_all [wfFrom]
    | some b => simp_all [wfFrom]

theorem wfFrom_cons {lo : Option Nat} {k : Nat} {v : Byte} {rest : Memory}
    (h : wfFrom lo ((k, v) :: rest) = true) :
    (∀ b, lo = some b → b < k) ∧ v ≠ unlisted ∧ wfFrom (some k) rest = true := by
  cases lo <;> simp_all [wfFrom]

/-- Every address of a canonical list lies above its bound. -/
theorem wfFrom_lt {b : Nat} {m : Memory} (h : wfFrom (some b) m = true) : ∀ c ∈ m, b < c.1 := by
  induction m generalizing b with
  | nil => simp
  | cons c rest ih =>
    obtain ⟨k, v⟩ := c
    obtain ⟨hb, -, hr⟩ := wfFrom_cons h
    have hk := hb b rfl
    intro c hc
    rcases List.mem_cons.1 hc with rfl | hc
    · exact hk
    · exact lt_trans hk (ih hr c hc)

/-- An address below a canonical list reads as an unlisted one. -/
theorem read_of_wfFrom_le {b a : Nat} {m : Memory} (h : wfFrom (some b) m = true) (ha : a ≤ b) :
    read m a = unlisted := by
  induction m generalizing b with
  | nil => rfl
  | cons c rest ih =>
    obtain ⟨k, v⟩ := c
    obtain ⟨hb, -, hr⟩ := wfFrom_cons h
    have hk := hb b rfl
    rw [read_cons, if_neg (by omega)]
    exact ih hr (by omega)

theorem erase_subset {m : Memory} {a : Nat} : ∀ c ∈ m.erase a, c ∈ m := by
  induction m with
  | nil => simp [erase]
  | cons c rest ih =>
    obtain ⟨k, v⟩ := c
    unfold erase
    split
    · intro c hc; exact List.mem_cons_of_mem _ hc
    · intro c hc
      rcases List.mem_cons.1 hc with rfl | hc
      · simp
      · exact List.mem_cons_of_mem _ (ih c hc)

theorem insert_subset {m : Memory} {a : Nat} {b : Byte} :
    ∀ c ∈ m.insert a b, c = (a, b) ∨ c ∈ m := by
  induction m with
  | nil => simp [insert]
  | cons c rest ih =>
    obtain ⟨k, v⟩ := c
    unfold insert
    split
    · intro c hc; simpa using hc
    · split
      · intro c hc
        rcases List.mem_cons.1 hc with h | hc
        · exact .inl h
        · exact .inr (List.mem_cons_of_mem _ hc)
      · intro c hc
        rcases List.mem_cons.1 hc with h | hc
        · exact .inr (by simp [h])
        · exact (ih c hc).imp id (List.mem_cons_of_mem _)

/-- A write adds no cell but at its own address. -/
theorem write_subset {m : Memory} {a : Nat} {b : Byte} : ∀ c ∈ m.write a b, c.1 = a ∨ c ∈ m := by
  unfold write
  split
  · intro c hc; exact .inr (erase_subset c hc)
  · intro c hc
    rcases insert_subset c hc with rfl | h
    · exact .inl rfl
    · exact .inr h

theorem wfFrom_erase {lo : Option Nat} {m : Memory} (h : wfFrom lo m = true) (a : Nat) :
    wfFrom lo (m.erase a) = true := by
  induction m generalizing lo with
  | nil => simpa [erase]
  | cons c rest ih =>
    obtain ⟨k, v⟩ := c
    obtain ⟨hb, hv, hr⟩ := wfFrom_cons h
    unfold erase
    split
    · refine wfFrom_weaken hr fun b hlo c hc => ?_
      exact lt_trans (hb b hlo) (wfFrom_lt hr c hc)
    · cases lo <;> simp_all [wfFrom]

theorem wfFrom_insert {lo : Option Nat} {m : Memory} (h : wfFrom lo m = true) {a : Nat} {b : Byte}
    (hb : b ≠ unlisted) (hlo : ∀ k, lo = some k → k < a) : wfFrom lo (m.insert a b) = true := by
  induction m generalizing lo with
  | nil => cases lo <;> simp_all [insert, wfFrom]
  | cons c rest ih =>
    obtain ⟨k, v⟩ := c
    obtain ⟨hk, hv, hr⟩ := wfFrom_cons h
    unfold insert
    split
    · cases lo <;> simp_all [wfFrom]
    · split
      · cases lo <;> simp_all [wfFrom]
      · have := ih (lo := some k) hr (by intro j hj; cases hj; omega)
        cases lo <;> simp_all [wfFrom]

/-- A write keeps the canonical form. -/
theorem wf_write {m : Memory} (h : m.wf = true) (a : Nat) (b : Byte) : (m.write a b).wf = true := by
  unfold write
  split
  · exact wfFrom_erase h a
  · exact wfFrom_insert h ‹_› (by simp)

/-- A store of several bytes keeps the canonical form. -/
theorem wf_writeBytes {m : Memory} (h : m.wf = true) (a : Nat) (bs : List Byte) :
    (m.writeBytes a bs).wf = true := by
  induction bs generalizing m a with
  | nil => exact h
  | cons b bs ih => exact ih (wf_write h a b) (a + 1)

@[simp] theorem wf_nil : wf [] = true := rfl

theorem read_erase_same {lo : Option Nat} {m : Memory} (h : wfFrom lo m = true) (a : Nat) :
    (m.erase a).read a = unlisted := by
  induction m generalizing lo with
  | nil => rfl
  | cons c rest ih =>
    obtain ⟨k, v⟩ := c
    obtain ⟨-, -, hr⟩ := wfFrom_cons h
    unfold erase
    split
    · subst_vars; exact read_of_wfFrom_le hr le_rfl
    · rw [read_cons, if_neg ‹_›]; exact ih hr

theorem read_erase_other (m : Memory) {a x : Nat} (hx : x ≠ a) : (m.erase a).read x = m.read x := by
  induction m with
  | nil => rfl
  | cons c rest ih =>
    obtain ⟨k, v⟩ := c
    unfold erase
    split
    · subst_vars; rw [read_cons, if_neg hx]
    · simp [read_cons, ih]

theorem read_insert (m : Memory) (a : Nat) (b : Byte) (x : Nat) :
    (m.insert a b).read x = if x = a then b else m.read x := by
  induction m with
  | nil => rfl
  | cons c rest ih =>
    obtain ⟨k, v⟩ := c
    unfold insert
    split
    · rfl
    · split
      · subst_vars; simp only [read_cons]; split <;> rfl
      · simp only [read_cons, ih]; split <;> split <;> first | rfl | omega

/-- A read after a write to the same address gives the byte written. -/
theorem read_write_same {m : Memory} (h : m.wf = true) (a : Nat) (b : Byte) :
    (m.write a b).read a = b := by
  unfold write
  split
  · rename_i hb; rw [hb]; exact read_erase_same h a
  · simp [read_insert]

/-- A write leaves every other address alone. -/
theorem read_write_other (m : Memory) {a x : Nat} (b : Byte) (hx : x ≠ a) :
    (m.write a b).read x = m.read x := by
  unfold write
  split
  · exact read_erase_other m hx
  · simp [read_insert, hx]

/-- A store leaves every address outside its bytes alone. -/
theorem read_writeBytes_other (m : Memory) {a x : Nat} (bs : List Byte)
    (hx : x < a ∨ a + bs.length ≤ x) : (m.writeBytes a bs).read x = m.read x := by
  induction bs generalizing m a with
  | nil => rfl
  | cons b bs ih =>
    simp only [List.length_cons] at hx
    rw [writeBytes, ih _ (by omega), read_write_other _ _ (by omega)]

/-- Byte `k` of a store reads back at its address. -/
theorem read_writeBytes_same {m : Memory} (h : m.wf = true) (a : Nat) (bs : List Byte) (k : Nat)
    (hk : k < bs.length) : (m.writeBytes a bs).read (a + k) = bs[k] := by
  induction bs generalizing m a k with
  | nil => simp at hk
  | cons b bs ih =>
    rw [writeBytes]
    cases k with
    | zero =>
      rw [read_writeBytes_other _ _ (by omega)]
      simpa using read_write_same h a b
    | succ k =>
      have := ih (wf_write h a b) (a + 1) k (by simpa using hk)
      rw [show a + (k + 1) = a + 1 + k by omega, this]; rfl

/-- A store adds no cell outside its bytes. -/
theorem writeBytes_subset (m : Memory) (a : Nat) (bs : List Byte) :
    ∀ c ∈ m.writeBytes a bs, (a ≤ c.1 ∧ c.1 < a + bs.length) ∨ c ∈ m := by
  induction bs generalizing m a with
  | nil => intro c hc; exact .inr hc
  | cons b bs ih =>
    intro c hc
    rcases ih _ _ c hc with h | h
    · left; simp only [List.length_cons]; omega
    · rcases write_subset c h with h | h
      · left; simp only [List.length_cons]; omega
      · exact .inr h

/-- Two canonical memories that read the same everywhere are the same list. -/
theorem ext_of_wfFrom {lo lo' : Option Nat} {m n : Memory} (hm : wfFrom lo m = true)
    (hn : wfFrom lo' n = true) (h : ∀ a, m.read a = n.read a) : m = n := by
  induction m generalizing lo lo' n with
  | nil =>
    cases n with
    | nil => rfl
    | cons c rest =>
      obtain ⟨k, v⟩ := c
      have := h k
      simp_all [read_cons, (wfFrom_cons hn).2.1.symm]
  | cons c rest ih =>
    obtain ⟨k, v⟩ := c
    obtain ⟨-, hv, hr⟩ := wfFrom_cons hm
    cases n with
    | nil => have := h k; simp_all [read_cons]
    | cons d rest' =>
      obtain ⟨k', v'⟩ := d
      obtain ⟨-, hv', hr'⟩ := wfFrom_cons hn
      have hkk : k = k' := by
        rcases lt_trichotomy k k' with hlt | heq | hgt
        · have := h k
          rw [read_cons, if_pos rfl, read_cons, if_neg (by omega),
            read_of_wfFrom_le hr' (by omega)] at this
          exact absurd this hv
        · exact heq
        · have := h k'
          rw [read_cons, if_neg (by omega), read_of_wfFrom_le hr (by omega), read_cons,
            if_pos rfl] at this
          exact absurd this.symm hv'
      subst hkk
      have hvv : v = v' := by simpa [read_cons] using h k
      subst hvv
      congr 1
      refine ih hr hr' fun a => ?_
      by_cases ha : a ≤ k
      · rw [read_of_wfFrom_le hr ha, read_of_wfFrom_le hr' ha]
      · simpa [read_cons, show a ≠ k by omega] using h a

/-- The canonical form is one list for one memory. -/
theorem ext_of_wf {m n : Memory} (hm : m.wf = true) (hn : n.wf = true)
    (h : ∀ a, m.read a = n.read a) : m = n := ext_of_wfFrom hm hn h

@[simp] theorem readBytes_length (m : Memory) (a n : Nat) : (m.readBytes a n).length = n := by
  simp [readBytes]

/-- Byte `j` of a read of several bytes. -/
theorem readBytes_getElem? (m : Memory) (a n j : Nat) (h : j < n) :
    (m.readBytes a n)[j]? = some (m.read (a + j)) := by
  simp [readBytes, h]

/-- The bytes read are fixed by their number and by each of them. -/
theorem readBytes_eq_of (m : Memory) (a n : Nat) (bs : List Byte) (hl : bs.length = n)
    (h : ∀ j < n, bs[j]? = some (m.read (a + j))) : m.readBytes a n = bs := by
  apply List.ext_getElem?
  intro j
  by_cases hj : j < n
  · rw [readBytes_getElem? m a n j hj, h j hj]
  · rw [List.getElem?_eq_none (by simp; omega), List.getElem?_eq_none (by omega)]

end Sys2Proof.Machine.Memory
end

