-- ==== Sys2Proof/Laws/State.lean ====
section
/-! SUPPORT. What each named update of the state does to each field, one lemma per field, and to the
accessors that do not look at what it changes. All true by rfl. -/

namespace Sys2Proof.Machine.State

variable (s : State)

/-! ### endWith -/

@[simp] theorem endWith_custom (k : BitVec 4) : (s.endWith k).custom = s.custom := rfl
@[simp] theorem endWith_accs (k : BitVec 4) : (s.endWith k).accs = s.accs := rfl
@[simp] theorem endWith_arg (k : BitVec 4) : (s.endWith k).arg = s.arg := rfl
@[simp] theorem endWith_argw (k : BitVec 4) : (s.endWith k).argw = s.argw := rfl
@[simp] theorem endWith_result (k : BitVec 4) : (s.endWith k).result = s.result := rfl
@[simp] theorem endWith_resw (k : BitVec 4) : (s.endWith k).resw = s.resw := rfl
@[simp] theorem endWith_code (k : BitVec 4) : (s.endWith k).code = k := rfl
@[simp] theorem endWith_inFlight (k : BitVec 4) : (s.endWith k).inFlight = none := rfl
@[simp] theorem endWith_mem (k : BitVec 4) : (s.endWith k).mem = s.mem := rfl
@[simp] theorem endWith_regions (k : BitVec 4) : (s.endWith k).regions = s.regions := rfl
@[simp] theorem endWith_regBase (k : BitVec 4) : (s.endWith k).regBase = s.regBase := rfl
@[simp] theorem endWith_faults (k : BitVec 4) : (s.endWith k).faults = s.faults := rfl
@[simp] theorem endWith_pending (k : BitVec 4) : (s.endWith k).pending = s.pending := rfl
@[simp] theorem endWith_hostReads (k : BitVec 4) : (s.endWith k).hostReads = s.hostReads := rfl
@[simp] theorem endWith_draws (k : BitVec 4) : (s.endWith k).draws = s.draws := rfl
@[simp] theorem endWith_slot (k : BitVec 4) (n : Nat) : (s.endWith k).slot n = s.slot n := rfl
@[simp] theorem endWith_tvalid (k : BitVec 4) (n : Nat) : (s.endWith k).tvalid n = s.tvalid n := rfl
@[simp] theorem endWith_numSlots (k : BitVec 4) : (s.endWith k).numSlots = s.numSlots := rfl
@[simp] theorem endWith_context (k : BitVec 4) (b : Nat) : (s.endWith k).context b = s.context b := rfl
@[simp] theorem endWith_numAcc (k : BitVec 4) : (s.endWith k).numAcc = s.numAcc := rfl
@[simp] theorem endWith_admits (k : BitVec 4) (x : Nat) : (s.endWith k).admits x = s.admits x := rfl

/-! ### complete -/

@[simp] theorem complete_custom : (s.complete).custom = s.custom := rfl
@[simp] theorem complete_accs : (s.complete).accs = s.accs := rfl
@[simp] theorem complete_arg : (s.complete).arg = s.arg := rfl
@[simp] theorem complete_argw : (s.complete).argw = s.argw := rfl
@[simp] theorem complete_result : (s.complete).result = s.result := rfl
@[simp] theorem complete_resw : (s.complete).resw = s.resw := rfl
@[simp] theorem complete_code : (s.complete).code = codeOk := rfl
@[simp] theorem complete_inFlight : (s.complete).inFlight = none := rfl
@[simp] theorem complete_mem : (s.complete).mem = s.mem := rfl
@[simp] theorem complete_regions : (s.complete).regions = s.regions := rfl
@[simp] theorem complete_regBase : (s.complete).regBase = s.regBase := rfl
@[simp] theorem complete_faults : (s.complete).faults = s.faults := rfl
@[simp] theorem complete_pending : (s.complete).pending = s.pending := rfl
@[simp] theorem complete_hostReads : (s.complete).hostReads = s.hostReads := rfl
@[simp] theorem complete_draws : (s.complete).draws = s.draws := rfl
@[simp] theorem complete_slot (n : Nat) : (s.complete).slot n = s.slot n := rfl
@[simp] theorem complete_tvalid (n : Nat) : (s.complete).tvalid n = s.tvalid n := rfl
@[simp] theorem complete_numSlots : (s.complete).numSlots = s.numSlots := rfl
@[simp] theorem complete_context (b : Nat) : (s.complete).context b = s.context b := rfl
@[simp] theorem complete_numAcc : (s.complete).numAcc = s.numAcc := rfl
@[simp] theorem complete_admits (x : Nat) : (s.complete).admits x = s.admits x := rfl

/-! ### raise -/

@[simp] theorem raise_custom (e : Code) : (s.raise e).custom = s.custom := rfl
@[simp] theorem raise_accs (e : Code) : (s.raise e).accs = s.accs := rfl
@[simp] theorem raise_arg (e : Code) : (s.raise e).arg = s.arg := rfl
@[simp] theorem raise_argw (e : Code) : (s.raise e).argw = s.argw := rfl
@[simp] theorem raise_result (e : Code) : (s.raise e).result = s.result := rfl
@[simp] theorem raise_resw (e : Code) : (s.raise e).resw = s.resw := rfl
@[simp] theorem raise_code (e : Code) : (s.raise e).code = e.bits := rfl
@[simp] theorem raise_inFlight (e : Code) : (s.raise e).inFlight = none := rfl
@[simp] theorem raise_mem (e : Code) : (s.raise e).mem = s.mem := rfl
@[simp] theorem raise_regions (e : Code) : (s.raise e).regions = s.regions := rfl
@[simp] theorem raise_regBase (e : Code) : (s.raise e).regBase = s.regBase := rfl
@[simp] theorem raise_faults (e : Code) : (s.raise e).faults = s.faults := rfl
@[simp] theorem raise_pending (e : Code) : (s.raise e).pending = s.pending := rfl
@[simp] theorem raise_hostReads (e : Code) : (s.raise e).hostReads = s.hostReads := rfl
@[simp] theorem raise_draws (e : Code) : (s.raise e).draws = s.draws := rfl
@[simp] theorem raise_slot (e : Code) (n : Nat) : (s.raise e).slot n = s.slot n := rfl
@[simp] theorem raise_tvalid (e : Code) (n : Nat) : (s.raise e).tvalid n = s.tvalid n := rfl
@[simp] theorem raise_numSlots (e : Code) : (s.raise e).numSlots = s.numSlots := rfl
@[simp] theorem raise_context (e : Code) (b : Nat) : (s.raise e).context b = s.context b := rfl
@[simp] theorem raise_numAcc (e : Code) : (s.raise e).numAcc = s.numAcc := rfl
@[simp] theorem raise_admits (e : Code) (x : Nat) : (s.raise e).admits x = s.admits x := rfl

/-! ### recordUnwrittenArg -/

@[simp] theorem recordUnwrittenArg_custom (i : Fin 5) : (s.recordUnwrittenArg i).custom = s.custom := rfl
@[simp] theorem recordUnwrittenArg_accs (i : Fin 5) : (s.recordUnwrittenArg i).accs = s.accs := rfl
@[simp] theorem recordUnwrittenArg_arg (i : Fin 5) : (s.recordUnwrittenArg i).arg = s.arg := rfl
@[simp] theorem recordUnwrittenArg_argw (i : Fin 5) : (s.recordUnwrittenArg i).argw = s.argw := rfl
@[simp] theorem recordUnwrittenArg_result (i : Fin 5) : (s.recordUnwrittenArg i).result = s.result := rfl
@[simp] theorem recordUnwrittenArg_resw (i : Fin 5) : (s.recordUnwrittenArg i).resw = s.resw := rfl
@[simp] theorem recordUnwrittenArg_code (i : Fin 5) : (s.recordUnwrittenArg i).code = s.code := rfl
@[simp] theorem recordUnwrittenArg_inFlight (i : Fin 5) : (s.recordUnwrittenArg i).inFlight = none := rfl
@[simp] theorem recordUnwrittenArg_mem (i : Fin 5) : (s.recordUnwrittenArg i).mem = s.mem := rfl
@[simp] theorem recordUnwrittenArg_regions (i : Fin 5) : (s.recordUnwrittenArg i).regions = s.regions := rfl
@[simp] theorem recordUnwrittenArg_regBase (i : Fin 5) : (s.recordUnwrittenArg i).regBase = s.regBase := rfl
@[simp] theorem recordUnwrittenArg_faults (i : Fin 5) : (s.recordUnwrittenArg i).faults = s.faults ++ [.unwrittenArg i] := rfl
@[simp] theorem recordUnwrittenArg_pending (i : Fin 5) : (s.recordUnwrittenArg i).pending = s.pending := rfl
@[simp] theorem recordUnwrittenArg_hostReads (i : Fin 5) : (s.recordUnwrittenArg i).hostReads = s.hostReads := rfl
@[simp] theorem recordUnwrittenArg_draws (i : Fin 5) : (s.recordUnwrittenArg i).draws = s.draws := rfl
@[simp] theorem recordUnwrittenArg_slot (i : Fin 5) (n : Nat) : (s.recordUnwrittenArg i).slot n = s.slot n := rfl
@[simp] theorem recordUnwrittenArg_tvalid (i : Fin 5) (n : Nat) : (s.recordUnwrittenArg i).tvalid n = s.tvalid n := rfl
@[simp] theorem recordUnwrittenArg_numSlots (i : Fin 5) : (s.recordUnwrittenArg i).numSlots = s.numSlots := rfl
@[simp] theorem recordUnwrittenArg_context (i : Fin 5) (b : Nat) : (s.recordUnwrittenArg i).context b = s.context b := rfl
@[simp] theorem recordUnwrittenArg_numAcc (i : Fin 5) : (s.recordUnwrittenArg i).numAcc = s.numAcc := rfl
@[simp] theorem recordUnwrittenArg_admits (i : Fin 5) (x : Nat) : (s.recordUnwrittenArg i).admits x = s.admits x := rfl

/-! ### recordUnwrittenResult -/

@[simp] theorem recordUnwrittenResult_custom : (s.recordUnwrittenResult).custom = s.custom := rfl
@[simp] theorem recordUnwrittenResult_accs : (s.recordUnwrittenResult).accs = s.accs := rfl
@[simp] theorem recordUnwrittenResult_arg : (s.recordUnwrittenResult).arg = s.arg := rfl
@[simp] theorem recordUnwrittenResult_argw : (s.recordUnwrittenResult).argw = s.argw := rfl
@[simp] theorem recordUnwrittenResult_result : (s.recordUnwrittenResult).result = s.result := rfl
@[simp] theorem recordUnwrittenResult_resw : (s.recordUnwrittenResult).resw = s.resw := rfl
@[simp] theorem recordUnwrittenResult_code : (s.recordUnwrittenResult).code = s.code := rfl
@[simp] theorem recordUnwrittenResult_inFlight : (s.recordUnwrittenResult).inFlight = s.inFlight := rfl
@[simp] theorem recordUnwrittenResult_mem : (s.recordUnwrittenResult).mem = s.mem := rfl
@[simp] theorem recordUnwrittenResult_regions : (s.recordUnwrittenResult).regions = s.regions := rfl
@[simp] theorem recordUnwrittenResult_regBase : (s.recordUnwrittenResult).regBase = s.regBase := rfl
@[simp] theorem recordUnwrittenResult_faults : (s.recordUnwrittenResult).faults = s.faults ++ [.unwrittenResult] := rfl
@[simp] theorem recordUnwrittenResult_pending : (s.recordUnwrittenResult).pending = s.pending := rfl
@[simp] theorem recordUnwrittenResult_hostReads : (s.recordUnwrittenResult).hostReads = s.hostReads := rfl
@[simp] theorem recordUnwrittenResult_draws : (s.recordUnwrittenResult).draws = s.draws := rfl
@[simp] theorem recordUnwrittenResult_slot (n : Nat) : (s.recordUnwrittenResult).slot n = s.slot n := rfl
@[simp] theorem recordUnwrittenResult_tvalid (n : Nat) : (s.recordUnwrittenResult).tvalid n = s.tvalid n := rfl
@[simp] theorem recordUnwrittenResult_numSlots : (s.recordUnwrittenResult).numSlots = s.numSlots := rfl
@[simp] theorem recordUnwrittenResult_context (b : Nat) : (s.recordUnwrittenResult).context b = s.context b := rfl
@[simp] theorem recordUnwrittenResult_numAcc : (s.recordUnwrittenResult).numAcc = s.numAcc := rfl
@[simp] theorem recordUnwrittenResult_admits (x : Nat) : (s.recordUnwrittenResult).admits x = s.admits x := rfl
@[simp] theorem recordUnwrittenResult_busy : (s.recordUnwrittenResult).busy = s.busy := rfl

/-! ### setSlot -/

@[simp] theorem setSlot_custom (n : Nat) (t : Table) : (s.setSlot n t).custom = if n = 0 then s.custom else s.custom.set (n - 1) (some t) := rfl
@[simp] theorem setSlot_accs (n : Nat) (t : Table) : (s.setSlot n t).accs = s.accs := rfl
@[simp] theorem setSlot_arg (n : Nat) (t : Table) : (s.setSlot n t).arg = s.arg := rfl
@[simp] theorem setSlot_argw (n : Nat) (t : Table) : (s.setSlot n t).argw = s.argw := rfl
@[simp] theorem setSlot_result (n : Nat) (t : Table) : (s.setSlot n t).result = s.result := rfl
@[simp] theorem setSlot_resw (n : Nat) (t : Table) : (s.setSlot n t).resw = s.resw := rfl
@[simp] theorem setSlot_code (n : Nat) (t : Table) : (s.setSlot n t).code = s.code := rfl
@[simp] theorem setSlot_inFlight (n : Nat) (t : Table) : (s.setSlot n t).inFlight = s.inFlight := rfl
@[simp] theorem setSlot_mem (n : Nat) (t : Table) : (s.setSlot n t).mem = s.mem := rfl
@[simp] theorem setSlot_regions (n : Nat) (t : Table) : (s.setSlot n t).regions = s.regions := rfl
@[simp] theorem setSlot_regBase (n : Nat) (t : Table) : (s.setSlot n t).regBase = s.regBase := rfl
@[simp] theorem setSlot_faults (n : Nat) (t : Table) : (s.setSlot n t).faults = s.faults := rfl
@[simp] theorem setSlot_pending (n : Nat) (t : Table) : (s.setSlot n t).pending = s.pending := rfl
@[simp] theorem setSlot_hostReads (n : Nat) (t : Table) : (s.setSlot n t).hostReads = s.hostReads := rfl
@[simp] theorem setSlot_draws (n : Nat) (t : Table) : (s.setSlot n t).draws = s.draws := rfl
@[simp] theorem setSlot_context (n : Nat) (t : Table) (b : Nat) : (s.setSlot n t).context b = s.context b := rfl
@[simp] theorem setSlot_numAcc (n : Nat) (t : Table) : (s.setSlot n t).numAcc = s.numAcc := rfl
@[simp] theorem setSlot_admits (n : Nat) (t : Table) (x : Nat) : (s.setSlot n t).admits x = s.admits x := rfl
@[simp] theorem setSlot_busy (n : Nat) (t : Table) : (s.setSlot n t).busy = s.busy := rfl

/-! ### setContext -/

@[simp] theorem setContext_custom (a : Nat) (c : Context) : (s.setContext a c).custom = s.custom := rfl
@[simp] theorem setContext_accs (a : Nat) (c : Context) : (s.setContext a c).accs = s.accs.set a c := rfl
@[simp] theorem setContext_arg (a : Nat) (c : Context) : (s.setContext a c).arg = s.arg := rfl
@[simp] theorem setContext_argw (a : Nat) (c : Context) : (s.setContext a c).argw = s.argw := rfl
@[simp] theorem setContext_result (a : Nat) (c : Context) : (s.setContext a c).result = s.result := rfl
@[simp] theorem setContext_resw (a : Nat) (c : Context) : (s.setContext a c).resw = s.resw := rfl
@[simp] theorem setContext_code (a : Nat) (c : Context) : (s.setContext a c).code = s.code := rfl
@[simp] theorem setContext_inFlight (a : Nat) (c : Context) : (s.setContext a c).inFlight = s.inFlight := rfl
@[simp] theorem setContext_mem (a : Nat) (c : Context) : (s.setContext a c).mem = s.mem := rfl
@[simp] theorem setContext_regions (a : Nat) (c : Context) : (s.setContext a c).regions = s.regions := rfl
@[simp] theorem setContext_regBase (a : Nat) (c : Context) : (s.setContext a c).regBase = s.regBase := rfl
@[simp] theorem setContext_faults (a : Nat) (c : Context) : (s.setContext a c).faults = s.faults := rfl
@[simp] theorem setContext_pending (a : Nat) (c : Context) : (s.setContext a c).pending = s.pending := rfl
@[simp] theorem setContext_hostReads (a : Nat) (c : Context) : (s.setContext a c).hostReads = s.hostReads := rfl
@[simp] theorem setContext_draws (a : Nat) (c : Context) : (s.setContext a c).draws = s.draws := rfl
@[simp] theorem setContext_slot (a : Nat) (c : Context) (n : Nat) : (s.setContext a c).slot n = s.slot n := rfl
@[simp] theorem setContext_tvalid (a : Nat) (c : Context) (n : Nat) : (s.setContext a c).tvalid n = s.tvalid n := rfl
@[simp] theorem setContext_numSlots (a : Nat) (c : Context) : (s.setContext a c).numSlots = s.numSlots := rfl
@[simp] theorem setContext_admits (a : Nat) (c : Context) (x : Nat) : (s.setContext a c).admits x = s.admits x := rfl
@[simp] theorem setContext_busy (a : Nat) (c : Context) : (s.setContext a c).busy = s.busy := rfl

/-! ### writeArg -/

@[simp] theorem writeArg_custom (i : Fin 5) (v : Word) : (s.writeArg i v).custom = s.custom := rfl
@[simp] theorem writeArg_accs (i : Fin 5) (v : Word) : (s.writeArg i v).accs = s.accs := rfl
@[simp] theorem writeArg_arg (i : Fin 5) (v : Word) : (s.writeArg i v).arg = s.arg.set i v := rfl
@[simp] theorem writeArg_argw (i : Fin 5) (v : Word) : (s.writeArg i v).argw = s.argw.set i true := rfl
@[simp] theorem writeArg_result (i : Fin 5) (v : Word) : (s.writeArg i v).result = s.result := rfl
@[simp] theorem writeArg_resw (i : Fin 5) (v : Word) : (s.writeArg i v).resw = s.resw := rfl
@[simp] theorem writeArg_code (i : Fin 5) (v : Word) : (s.writeArg i v).code = s.code := rfl
@[simp] theorem writeArg_inFlight (i : Fin 5) (v : Word) : (s.writeArg i v).inFlight = s.inFlight := rfl
@[simp] theorem writeArg_mem (i : Fin 5) (v : Word) : (s.writeArg i v).mem = s.mem := rfl
@[simp] theorem writeArg_regions (i : Fin 5) (v : Word) : (s.writeArg i v).regions = s.regions := rfl
@[simp] theorem writeArg_regBase (i : Fin 5) (v : Word) : (s.writeArg i v).regBase = s.regBase := rfl
@[simp] theorem writeArg_faults (i : Fin 5) (v : Word) : (s.writeArg i v).faults = s.faults := rfl
@[simp] theorem writeArg_pending (i : Fin 5) (v : Word) : (s.writeArg i v).pending = s.pending := rfl
@[simp] theorem writeArg_hostReads (i : Fin 5) (v : Word) : (s.writeArg i v).hostReads = s.hostReads := rfl
@[simp] theorem writeArg_draws (i : Fin 5) (v : Word) : (s.writeArg i v).draws = s.draws := rfl
@[simp] theorem writeArg_slot (i : Fin 5) (v : Word) (n : Nat) : (s.writeArg i v).slot n = s.slot n := rfl
@[simp] theorem writeArg_tvalid (i : Fin 5) (v : Word) (n : Nat) : (s.writeArg i v).tvalid n = s.tvalid n := rfl
@[simp] theorem writeArg_numSlots (i : Fin 5) (v : Word) : (s.writeArg i v).numSlots = s.numSlots := rfl
@[simp] theorem writeArg_context (i : Fin 5) (v : Word) (b : Nat) : (s.writeArg i v).context b = s.context b := rfl
@[simp] theorem writeArg_numAcc (i : Fin 5) (v : Word) : (s.writeArg i v).numAcc = s.numAcc := rfl
@[simp] theorem writeArg_admits (i : Fin 5) (v : Word) (x : Nat) : (s.writeArg i v).admits x = s.admits x := rfl
@[simp] theorem writeArg_busy (i : Fin 5) (v : Word) : (s.writeArg i v).busy = s.busy := rfl

/-! ### setResult -/

@[simp] theorem setResult_custom (v : Word) : (s.setResult v).custom = s.custom := rfl
@[simp] theorem setResult_accs (v : Word) : (s.setResult v).accs = s.accs := rfl
@[simp] theorem setResult_arg (v : Word) : (s.setResult v).arg = s.arg := rfl
@[simp] theorem setResult_argw (v : Word) : (s.setResult v).argw = s.argw := rfl
@[simp] theorem setResult_result (v : Word) : (s.setResult v).result = v := rfl
@[simp] theorem setResult_resw (v : Word) : (s.setResult v).resw = true := rfl
@[simp] theorem setResult_code (v : Word) : (s.setResult v).code = s.code := rfl
@[simp] theorem setResult_inFlight (v : Word) : (s.setResult v).inFlight = s.inFlight := rfl
@[simp] theorem setResult_mem (v : Word) : (s.setResult v).mem = s.mem := rfl
@[simp] theorem setResult_regions (v : Word) : (s.setResult v).regions = s.regions := rfl
@[simp] theorem setResult_regBase (v : Word) : (s.setResult v).regBase = s.regBase := rfl
@[simp] theorem setResult_faults (v : Word) : (s.setResult v).faults = s.faults := rfl
@[simp] theorem setResult_pending (v : Word) : (s.setResult v).pending = s.pending := rfl
@[simp] theorem setResult_hostReads (v : Word) : (s.setResult v).hostReads = s.hostReads := rfl
@[simp] theorem setResult_draws (v : Word) : (s.setResult v).draws = s.draws := rfl
@[simp] theorem setResult_slot (v : Word) (n : Nat) : (s.setResult v).slot n = s.slot n := rfl
@[simp] theorem setResult_tvalid (v : Word) (n : Nat) : (s.setResult v).tvalid n = s.tvalid n := rfl
@[simp] theorem setResult_numSlots (v : Word) : (s.setResult v).numSlots = s.numSlots := rfl
@[simp] theorem setResult_context (v : Word) (b : Nat) : (s.setResult v).context b = s.context b := rfl
@[simp] theorem setResult_numAcc (v : Word) : (s.setResult v).numAcc = s.numAcc := rfl
@[simp] theorem setResult_admits (v : Word) (x : Nat) : (s.setResult v).admits x = s.admits x := rfl
@[simp] theorem setResult_busy (v : Word) : (s.setResult v).busy = s.busy := rfl

/-! ### storeBytes -/

@[simp] theorem storeBytes_custom (a : Nat) (bs : List Byte) : (s.storeBytes a bs).custom = s.custom := rfl
@[simp] theorem storeBytes_accs (a : Nat) (bs : List Byte) : (s.storeBytes a bs).accs = s.accs := rfl
@[simp] theorem storeBytes_arg (a : Nat) (bs : List Byte) : (s.storeBytes a bs).arg = s.arg := rfl
@[simp] theorem storeBytes_argw (a : Nat) (bs : List Byte) : (s.storeBytes a bs).argw = s.argw := rfl
@[simp] theorem storeBytes_result (a : Nat) (bs : List Byte) : (s.storeBytes a bs).result = s.result := rfl
@[simp] theorem storeBytes_resw (a : Nat) (bs : List Byte) : (s.storeBytes a bs).resw = s.resw := rfl
@[simp] theorem storeBytes_code (a : Nat) (bs : List Byte) : (s.storeBytes a bs).code = s.code := rfl
@[simp] theorem storeBytes_inFlight (a : Nat) (bs : List Byte) : (s.storeBytes a bs).inFlight = s.inFlight := rfl
@[simp] theorem storeBytes_mem (a : Nat) (bs : List Byte) : (s.storeBytes a bs).mem = s.mem.writeBytes a bs := rfl
@[simp] theorem storeBytes_regions (a : Nat) (bs : List Byte) : (s.storeBytes a bs).regions = s.regions := rfl
@[simp] theorem storeBytes_regBase (a : Nat) (bs : List Byte) : (s.storeBytes a bs).regBase = s.regBase := rfl
@[simp] theorem storeBytes_faults (a : Nat) (bs : List Byte) : (s.storeBytes a bs).faults = s.faults := rfl
@[simp] theorem storeBytes_pending (a : Nat) (bs : List Byte) : (s.storeBytes a bs).pending = s.pending := rfl
@[simp] theorem storeBytes_hostReads (a : Nat) (bs : List Byte) : (s.storeBytes a bs).hostReads = s.hostReads := rfl
@[simp] theorem storeBytes_draws (a : Nat) (bs : List Byte) : (s.storeBytes a bs).draws = s.draws := rfl
@[simp] theorem storeBytes_slot (a : Nat) (bs : List Byte) (n : Nat) : (s.storeBytes a bs).slot n = s.slot n := rfl
@[simp] theorem storeBytes_tvalid (a : Nat) (bs : List Byte) (n : Nat) : (s.storeBytes a bs).tvalid n = s.tvalid n := rfl
@[simp] theorem storeBytes_numSlots (a : Nat) (bs : List Byte) : (s.storeBytes a bs).numSlots = s.numSlots := rfl
@[simp] theorem storeBytes_context (a : Nat) (bs : List Byte) (b : Nat) : (s.storeBytes a bs).context b = s.context b := rfl
@[simp] theorem storeBytes_numAcc (a : Nat) (bs : List Byte) : (s.storeBytes a bs).numAcc = s.numAcc := rfl
@[simp] theorem storeBytes_admits (a : Nat) (bs : List Byte) (x : Nat) : (s.storeBytes a bs).admits x = s.admits x := rfl
@[simp] theorem storeBytes_busy (a : Nat) (bs : List Byte) : (s.storeBytes a bs).busy = s.busy := rfl

/-! ### gotRead -/

@[simp] theorem gotRead_custom (v : Word) : (s.gotRead v).custom = s.custom := rfl
@[simp] theorem gotRead_accs (v : Word) : (s.gotRead v).accs = s.accs := rfl
@[simp] theorem gotRead_arg (v : Word) : (s.gotRead v).arg = s.arg := rfl
@[simp] theorem gotRead_argw (v : Word) : (s.gotRead v).argw = s.argw := rfl
@[simp] theorem gotRead_result (v : Word) : (s.gotRead v).result = s.result := rfl
@[simp] theorem gotRead_resw (v : Word) : (s.gotRead v).resw = s.resw := rfl
@[simp] theorem gotRead_code (v : Word) : (s.gotRead v).code = s.code := rfl
@[simp] theorem gotRead_inFlight (v : Word) : (s.gotRead v).inFlight = s.inFlight := rfl
@[simp] theorem gotRead_mem (v : Word) : (s.gotRead v).mem = s.mem := rfl
@[simp] theorem gotRead_regions (v : Word) : (s.gotRead v).regions = s.regions := rfl
@[simp] theorem gotRead_regBase (v : Word) : (s.gotRead v).regBase = s.regBase := rfl
@[simp] theorem gotRead_faults (v : Word) : (s.gotRead v).faults = s.faults := rfl
@[simp] theorem gotRead_pending (v : Word) : (s.gotRead v).pending = s.pending := rfl
@[simp] theorem gotRead_hostReads (v : Word) : (s.gotRead v).hostReads = v :: s.hostReads := rfl
@[simp] theorem gotRead_draws (v : Word) : (s.gotRead v).draws = s.draws := rfl
@[simp] theorem gotRead_slot (v : Word) (n : Nat) : (s.gotRead v).slot n = s.slot n := rfl
@[simp] theorem gotRead_tvalid (v : Word) (n : Nat) : (s.gotRead v).tvalid n = s.tvalid n := rfl
@[simp] theorem gotRead_numSlots (v : Word) : (s.gotRead v).numSlots = s.numSlots := rfl
@[simp] theorem gotRead_context (v : Word) (b : Nat) : (s.gotRead v).context b = s.context b := rfl
@[simp] theorem gotRead_numAcc (v : Word) : (s.gotRead v).numAcc = s.numAcc := rfl
@[simp] theorem gotRead_admits (v : Word) (x : Nat) : (s.gotRead v).admits x = s.admits x := rfl
@[simp] theorem gotRead_busy (v : Word) : (s.gotRead v).busy = s.busy := rfl

/-! ### advanceDraw -/

@[simp] theorem advanceDraw_custom : (s.advanceDraw).custom = s.custom := rfl
@[simp] theorem advanceDraw_accs : (s.advanceDraw).accs = s.accs := rfl
@[simp] theorem advanceDraw_arg : (s.advanceDraw).arg = s.arg := rfl
@[simp] theorem advanceDraw_argw : (s.advanceDraw).argw = s.argw := rfl
@[simp] theorem advanceDraw_result : (s.advanceDraw).result = s.result := rfl
@[simp] theorem advanceDraw_resw : (s.advanceDraw).resw = s.resw := rfl
@[simp] theorem advanceDraw_code : (s.advanceDraw).code = s.code := rfl
@[simp] theorem advanceDraw_inFlight : (s.advanceDraw).inFlight = s.inFlight := rfl
@[simp] theorem advanceDraw_mem : (s.advanceDraw).mem = s.mem := rfl
@[simp] theorem advanceDraw_regions : (s.advanceDraw).regions = s.regions := rfl
@[simp] theorem advanceDraw_regBase : (s.advanceDraw).regBase = s.regBase := rfl
@[simp] theorem advanceDraw_faults : (s.advanceDraw).faults = s.faults := rfl
@[simp] theorem advanceDraw_pending : (s.advanceDraw).pending = s.pending := rfl
@[simp] theorem advanceDraw_hostReads : (s.advanceDraw).hostReads = s.hostReads := rfl
@[simp] theorem advanceDraw_draws : (s.advanceDraw).draws = s.draws + 1 := rfl
@[simp] theorem advanceDraw_slot (n : Nat) : (s.advanceDraw).slot n = s.slot n := rfl
@[simp] theorem advanceDraw_tvalid (n : Nat) : (s.advanceDraw).tvalid n = s.tvalid n := rfl
@[simp] theorem advanceDraw_numSlots : (s.advanceDraw).numSlots = s.numSlots := rfl
@[simp] theorem advanceDraw_context (b : Nat) : (s.advanceDraw).context b = s.context b := rfl
@[simp] theorem advanceDraw_numAcc : (s.advanceDraw).numAcc = s.numAcc := rfl
@[simp] theorem advanceDraw_admits (x : Nat) : (s.advanceDraw).admits x = s.admits x := rfl
@[simp] theorem advanceDraw_busy : (s.advanceDraw).busy = s.busy := rfl

/-! ### start -/

@[simp] theorem start_custom (w : Word) : (s.start w).custom = s.custom := rfl
@[simp] theorem start_accs (w : Word) : (s.start w).accs = s.accs := rfl
@[simp] theorem start_arg (w : Word) : (s.start w).arg = s.arg := rfl
@[simp] theorem start_argw (w : Word) : (s.start w).argw = s.argw := rfl
@[simp] theorem start_result (w : Word) : (s.start w).result = s.result := rfl
@[simp] theorem start_resw (w : Word) : (s.start w).resw = s.resw := rfl
@[simp] theorem start_code (w : Word) : (s.start w).code = s.code := rfl
@[simp] theorem start_inFlight (w : Word) : (s.start w).inFlight = some w := rfl
@[simp] theorem start_mem (w : Word) : (s.start w).mem = s.mem := rfl
@[simp] theorem start_regions (w : Word) : (s.start w).regions = s.regions := rfl
@[simp] theorem start_regBase (w : Word) : (s.start w).regBase = s.regBase := rfl
@[simp] theorem start_faults (w : Word) : (s.start w).faults = s.faults := rfl
@[simp] theorem start_pending (w : Word) : (s.start w).pending = s.pending := rfl
@[simp] theorem start_hostReads (w : Word) : (s.start w).hostReads = s.hostReads := rfl
@[simp] theorem start_draws (w : Word) : (s.start w).draws = s.draws := rfl
@[simp] theorem start_slot (w : Word) (n : Nat) : (s.start w).slot n = s.slot n := rfl
@[simp] theorem start_tvalid (w : Word) (n : Nat) : (s.start w).tvalid n = s.tvalid n := rfl
@[simp] theorem start_numSlots (w : Word) : (s.start w).numSlots = s.numSlots := rfl
@[simp] theorem start_context (w : Word) (b : Nat) : (s.start w).context b = s.context b := rfl
@[simp] theorem start_numAcc (w : Word) : (s.start w).numAcc = s.numAcc := rfl
@[simp] theorem start_admits (w : Word) (x : Nat) : (s.start w).admits x = s.admits x := rfl

/-! ### applyReset -/

@[simp] theorem applyReset_custom : (s.applyReset).custom = List.replicate s.custom.length none := rfl
@[simp] theorem applyReset_accs : (s.applyReset).accs = List.replicate s.accs.length ⟨0#32, 0#8⟩ := rfl
@[simp] theorem applyReset_arg : (s.applyReset).arg = Vector.replicate 5 0#32 := rfl
@[simp] theorem applyReset_argw : (s.applyReset).argw = Vector.replicate 5 false := rfl
@[simp] theorem applyReset_result : (s.applyReset).result = 0#32 := rfl
@[simp] theorem applyReset_resw : (s.applyReset).resw = false := rfl
@[simp] theorem applyReset_code : (s.applyReset).code = 0#4 := rfl
@[simp] theorem applyReset_inFlight : (s.applyReset).inFlight = none := rfl
@[simp] theorem applyReset_mem : (s.applyReset).mem = s.mem := rfl
@[simp] theorem applyReset_regions : (s.applyReset).regions = s.regions := rfl
@[simp] theorem applyReset_regBase : (s.applyReset).regBase = s.regBase := rfl
@[simp] theorem applyReset_faults : (s.applyReset).faults = s.faults := rfl
@[simp] theorem applyReset_pending : (s.applyReset).pending = s.pending := rfl
@[simp] theorem applyReset_hostReads : (s.applyReset).hostReads = s.hostReads := rfl
@[simp] theorem applyReset_draws : (s.applyReset).draws = s.draws := rfl
@[simp] theorem applyReset_admits (x : Nat) : (s.applyReset).admits x = s.admits x := rfl

end Sys2Proof.Machine.State
end

