-- ==== Sys2Proof/Laws/Ops.lean ====
section
/-! SUPPORT. What the shared operations do: the stores, build, and the end of a command. -/

namespace Sys2Proof.Machine

/-! ## The end of a command -/

@[simp] theorem State.finish_ok (s t : State) : s.finish (.ok t) = .next t.complete := rfl

@[simp] theorem State.finish_raise (s : State) (e : Code) :
    s.finish (.error (.raise e)) = .next (s.raise e) := rfl

@[simp] theorem State.finish_unwritten (s : State) (i : Fin 5) :
    s.finish (.error (.unwritten i)) = .next (s.recordUnwrittenArg i) := rfl

/-- Everything the end of a command can be. -/
theorem State.finish_cases (s : State) (r : Except Stop State) :
    (∃ t, r = .ok t ∧ s.finish r = .next t.complete) ∨
    (∃ e, r = .error (.raise e) ∧ s.finish r = .next (s.raise e)) ∨
    (∃ i, r = .error (.unwritten i) ∧ s.finish r = .next (s.recordUnwrittenArg i)) := by
  rcases r with (e | i) | t
  · exact .inr (.inl ⟨e, rfl, rfl⟩)
  · exact .inr (.inr ⟨i, rfl, rfl⟩)
  · exact .inl ⟨t, rfl, rfl⟩

/-- Where a command's checks stop it, its end does not depend on the writes that would follow. -/
@[simp] theorem bind_error {α β : Type} (e : Stop) (f : α → Except Stop β) :
    (Except.error e >>= f) = Except.error e := rfl

@[simp] theorem bind_ok {α β : Type} (a : α) (f : α → Except Stop β) :
    (Except.ok a >>= f) = f a := rfl

@[simp] theorem Code.bits_ne_ok (e : Code) : e.bits ≠ codeOk := by cases e <;> decide

theorem Code.bits_le (e : Code) : e.bits.toNat ≤ 4 := by cases e <;> decide

/-! ## The slots and contexts -/

@[simp] theorem State.slot_zero (s : State) : s.slot 0 = some defaultTable := rfl

@[simp] theorem State.tvalid_zero (s : State) : s.tvalid 0 = true := rfl

theorem State.tvalid_iff (s : State) (n : Nat) : s.tvalid n = true ↔ ∃ t, s.slot n = some t :=
  Option.isSome_iff_exists

/-- A custom slot is read from the store. -/
theorem State.slot_pos (s : State) {n : Nat} (h : n ≠ 0) :
    s.slot n = s.custom[n - 1]?.join := by
  unfold slot
  rw [if_neg h]
  cases s.custom[n - 1]? <;> rfl

/-- A valid slot exists. -/
theorem State.slot_lt (s : State) {n : Nat} {t : Table} (h : s.slot n = some t) :
    n < s.numSlots := by
  unfold numSlots
  by_cases h0 : n = 0
  · omega
  · rw [slot_pos s h0] at h
    by_contra hc
    rw [List.getElem?_eq_none (by omega)] at h
    simp at h

@[simp] theorem State.numSlots_setSlot (s : State) (n : Nat) (t : Table) :
    (s.setSlot n t).numSlots = s.numSlots := by
  unfold numSlots setSlot
  split <;> simp

theorem State.slot_setSlot_same (s : State) {n : Nat} (t : Table) (h0 : n ≠ 0)
    (h : n < s.numSlots) : (s.setSlot n t).slot n = some t := by
  have h : n - 1 < s.custom.length := by unfold numSlots at h; omega
  rw [slot_pos _ h0, setSlot_custom, if_neg h0]
  simp [h]

theorem State.slot_setSlot_other (s : State) {n m : Nat} (t : Table) (h : m ≠ n) :
    (s.setSlot n t).slot m = s.slot m := by
  by_cases h0 : m = 0
  · subst h0; rfl
  · rw [slot_pos _ h0, slot_pos _ h0, setSlot_custom]
    split
    · rfl
    · rw [List.getElem?_set_ne (by omega)]

@[simp] theorem State.numAcc_setContext (s : State) (a : Nat) (c : Context) :
    (s.setContext a c).numAcc = s.numAcc := by
  simp [numAcc]

theorem State.context_lt (s : State) {a : Nat} {c : Context} (h : s.context a = some c) :
    a < s.numAcc := (List.getElem?_eq_some_iff.1 h).1

theorem State.context_eq_none_iff (s : State) (a : Nat) : s.context a = none ↔ s.numAcc ≤ a :=
  List.getElem?_eq_none_iff

theorem State.context_setContext_same (s : State) {a : Nat} (c : Context) (h : a < s.numAcc) :
    (s.setContext a c).context a = some c := by
  simp only [context, setContext_accs]
  exact List.getElem?_set_self h

theorem State.context_setContext_other (s : State) {a b : Nat} (c : Context) (h : b ≠ a) :
    (s.setContext a c).context b = s.context b := by
  simp only [context, setContext_accs]
  exact List.getElem?_set_ne h.symm

/-! ## build -/

@[simp] theorem tableEntries_length (p : Word) : (tableEntries p).length = 256 := by
  simp [tableEntries]

/-- Entry `i` of build(p) is the remainder of `i` after eight steps (R80). -/
theorem build_getElem (p : Word) (i : Nat) (h : i < 256) : (build p)[i] = tableEntry p i := by
  simp [build, tableEntries]

/-- A byte's entry of a built table. -/
theorem builtTable_at (p : Word) (b : Byte) : (builtTable p).at b = divSteps p 8 (b.setWidth 32) := by
  unfold Table.at builtTable
  rw [build_getElem _ _ b.isLt, tableEntry, BitVec.ofNat_toNat]

@[simp] theorem builtTable_poly (p : Word) : (builtTable p).poly = p := rfl

@[simp] theorem builtTable_entries (p : Word) : (builtTable p).entries = build p := rfl

@[simp] theorem defaultTable_entries : defaultTable.entries = build defaultTable.poly := rfl

/-! ## The data memory -/

/-- An admitted address is a 32-bit address (R40). -/
theorem State.admits_lt (s : State) {a : Nat} (h : s.admits a = true) : a < 2 ^ 32 := by
  unfold admits at h
  simp_all

end Sys2Proof.Machine
end

