-- ==== Sys2Proof/Laws/Operands.lean ====
section
/-! SUPPORT. What the operand checks answer. -/

namespace Sys2Proof.Machine

theorem State.firstUnwritten_eq_none (s : State) (is : List (Fin 5)) :
    s.firstUnwritten is = none ↔ ∀ i ∈ is, s.argw[i] = true := by
  induction is with
  | nil => simp [firstUnwritten]
  | cons i is ih =>
    unfold firstUnwritten
    split <;> simp_all

/-- The fault is that of the first unwritten register of the list. -/
theorem State.firstUnwritten_eq_some (s : State) (is : List (Fin 5)) (k : Fin 5)
    (h : s.firstUnwritten is = some k) : k ∈ is ∧ s.argw[k] = false := by
  induction is with
  | nil => simp [firstUnwritten] at h
  | cons i is ih =>
    unfold firstUnwritten at h
    split at h
    · exact ⟨List.mem_cons_of_mem _ (ih h).1, (ih h).2⟩
    · simp_all

theorem State.checkArgs_ok (s : State) {i : Instr} (h : ∀ k ∈ argsRead i, s.argw[k] = true) :
    s.checkArgs i = .ok () := by
  unfold checkArgs
  rw [(s.firstUnwritten_eq_none _).2 h]

/-- Everything the check of the ARG registers can answer. -/
theorem State.checkArgs_cases (s : State) (i : Instr) :
    (s.checkArgs i = .ok () ∧ ∀ k ∈ argsRead i, s.argw[k] = true) ∨
    ∃ k ∈ argsRead i, s.argw[k] = false ∧ s.firstUnwritten (argsRead i) = some k ∧
      s.checkArgs i = .error (.unwritten k) := by
  unfold checkArgs
  cases h : s.firstUnwritten (argsRead i) with
  | none => exact .inl ⟨rfl, (s.firstUnwritten_eq_none _).1 h⟩
  | some k =>
    obtain ⟨hm, hk⟩ := s.firstUnwritten_eq_some _ _ h
    exact .inr ⟨k, hm, hk, rfl, rfl⟩

theorem State.contextFor_some (s : State) {a : Nat} {c : Context} (h : s.context a = some c) :
    s.contextFor a = .ok c := by
  unfold contextFor; rw [h]

theorem State.contextFor_none (s : State) {a : Nat} (h : s.numAcc ≤ a) :
    s.contextFor a = .error (.raise .illegalCommand) := by
  unfold contextFor; rw [(s.context_eq_none_iff a).2 h]

theorem State.contextFor_cases (s : State) (a : Nat) :
    (∃ c, s.context a = some c ∧ s.contextFor a = .ok c) ∨
    (s.numAcc ≤ a ∧ s.contextFor a = .error (.raise .illegalCommand)) := by
  cases h : s.context a with
  | some c => exact .inl ⟨c, rfl, s.contextFor_some h⟩
  | none =>
    have := (s.context_eq_none_iff a).1 h
    exact .inr ⟨this, s.contextFor_none this⟩

theorem State.tableFor_some (s : State) {n : Nat} {t : Table} (h : s.slot n = some t) :
    s.tableFor n = .ok t := by
  unfold tableFor; rw [h]

theorem State.tableFor_none (s : State) {n : Nat} (h : s.slot n = none) :
    s.tableFor n = .error (.raise .invalidTable) := by
  unfold tableFor; rw [h]

theorem State.tableFor_cases (s : State) (n : Nat) :
    (∃ t, s.slot n = some t ∧ s.tableFor n = .ok t) ∨
    (s.slot n = none ∧ s.tableFor n = .error (.raise .invalidTable)) := by
  cases h : s.slot n with
  | some t => exact .inl ⟨t, rfl, s.tableFor_some h⟩
  | none => exact .inr ⟨rfl, s.tableFor_none h⟩

theorem rangeOk_iff (size offset length : Int) :
    rangeOk size offset length = true ↔
      0 ≤ size ∧ 0 ≤ offset ∧ 0 ≤ length ∧ offset + length ≤ size := by
  simp [rangeOk, and_assoc]

theorem Span.has_iff (sp : Span) (a : Nat) : sp.has a = true ↔ sp.lo ≤ a ∧ a < sp.lo + sp.len := by
  simp [Span.has]

theorem State.admitsSpan_iff (s : State) (sp : Span) :
    s.admitsSpan sp = true ↔ ∀ j < sp.len, s.admits (sp.lo + j) = true := by
  simp [admitsSpan]

theorem State.checkSpan_cases (s : State) (sp : Span) :
    ((∀ j < sp.len, s.admits (sp.lo + j) = true) ∧ s.checkSpan sp = .ok sp) ∨
    ((∃ j < sp.len, s.admits (sp.lo + j) = false) ∧
      s.checkSpan sp = .error (.raise .busError)) := by
  unfold checkSpan
  cases h : s.admitsSpan sp with
  | true => exact .inl ⟨(s.admitsSpan_iff sp).1 h, rfl⟩
  | false =>
    refine .inr ⟨?_, rfl⟩
    have hn : ¬ ∀ j < sp.len, s.admits (sp.lo + j) = true := by
      rw [← s.admitsSpan_iff, h]; simp
    push Not at hn
    obtain ⟨j, hj, ha⟩ := hn
    exact ⟨j, hj, by simpa using ha⟩

/-- Where every address exists the span's check passes. -/
theorem State.checkSpan_ok (s : State) {sp : Span}
    (h : ∀ j < sp.len, s.admits (sp.lo + j) = true) : s.checkSpan sp = .ok sp := by
  unfold checkSpan
  rw [(s.admitsSpan_iff sp).2 h]; rfl

/-- A check that passes gives back its span, all of it existing. -/
theorem State.checkSpan_eq_ok (s : State) {sp sp' : Span} (h : s.checkSpan sp = .ok sp') :
    sp' = sp ∧ ∀ j < sp.len, s.admits (sp.lo + j) = true := by
  rcases s.checkSpan_cases sp with ⟨ha, he⟩ | ⟨-, he⟩ <;> rw [he] at h
  · cases h; exact ⟨rfl, ha⟩
  · cases h

/-! ## The checks look at no more than their operands -/

@[simp] theorem State.checkArgs_start (s : State) (w : Word) (i : Instr) :
    (s.start w).checkArgs i = s.checkArgs i := by
  unfold checkArgs
  have : ∀ is, (s.start w).firstUnwritten is = s.firstUnwritten is := by
    intro is
    induction is with
    | nil => rfl
    | cons k is ih => simp [firstUnwritten, ih]
  rw [this]

end Sys2Proof.Machine
end

