-- ==== Sys2Proof/Laws/Commands.lean ====
section
/-! SUPPORT. Everything a command can do, said once: the write it makes when its checks pass, or an
error, or the model fault of an unwritten ARG. -/

namespace Sys2Proof.Machine

/-- The write that a command makes in `s` when every check passes, before `complete`. -/
inductive Writes : Instr → State → State → Prop where
  | tbuild {n : Nat} {s : State} (h0 : n ≠ 0) (hn : n < s.numSlots) (he : s.slot n = none) :
      Writes (.tbuild n) s (s.setSlot n (builtTable s.arg[0]))
  | tread {n : Nat} {s : State} {t : Table} (ht : s.slot n = some t) (hi : s.argU 0 < 256) :
      Writes (.tread n) s (s.setResult (t.entries[s.argU 0]'hi))
  | digest {n : Nat} {s : State} {t : Table} {sp : Span} (ht : s.slot n = some t)
      (hv : s.view = .ok sp) :
      Writes (.digest n) s (s.setResult (digestOf t (s.bytesOf sp) s.arg[4]))
  | abind {a n : Nat} {s : State} {c : Context} {t : Table} (hc : s.context a = some c)
      (ht : s.slot n = some t) :
      Writes (.abind a n) s (s.setContext a ⟨0#32, BitVec.ofNat 8 n⟩)
  | areset {a : Nat} {s : State} {c : Context} (hc : s.context a = some c) :
      Writes (.areset a) s (s.setContext a { c with seed := 0#32 })
  | aupdate {a : Nat} {s : State} {c : Context} {t : Table} {sp : Span}
      (hc : s.context a = some c) (ht : s.slot c.tsel.toNat = some t) (hv : s.view = .ok sp) :
      Writes (.aupdate a) s
        (s.setContext a { c with seed := digestOf t (s.bytesOf sp) c.seed })
  | adigest {a : Nat} {s : State} {c : Context} (hc : s.context a = some c) :
      Writes (.adigest a) s (s.setResult c.seed)
  | adigestb {a : Nat} {s : State} {c : Context} (hc : s.context a = some c)
      (hm : ∀ k < 4, s.admits (s.argU 0 + k) = true) :
      Writes (.adigestb a) s (s.storeBytes (s.argU 0) (digestBytes c.seed))

/-- The two answers of `view`: the span, all of it existing, or an error (R107). -/
theorem State.view_cases (s : State) :
    (∃ sp, s.view = .ok sp ∧ rangeOk (s.argS 1) (s.argS 2) (s.argS 3) = true ∧
      sp = ⟨s.argU 0 + (s.argS 2).toNat, (s.argS 3).toNat⟩ ∧
      ∀ j < sp.len, s.admits (sp.lo + j) = true) ∨
    (rangeOk (s.argS 1) (s.argS 2) (s.argS 3) = false ∧
      s.view = .error (.raise .invalidRange)) ∨
    (rangeOk (s.argS 1) (s.argS 2) (s.argS 3) = true ∧
      (∃ j < (s.argS 3).toNat, s.admits (s.argU 0 + (s.argS 2).toNat + j) = false) ∧
      s.view = .error (.raise .busError)) := by
  unfold view
  cases hr : rangeOk (s.argS 1) (s.argS 2) (s.argS 3) with
  | false => exact .inr (.inl ⟨rfl, rfl⟩)
  | true =>
    rcases s.checkSpan_cases ⟨s.argU 0 + (s.argS 2).toNat, (s.argS 3).toNat⟩ with ⟨ha, he⟩ | ⟨ha, he⟩
    · exact .inl ⟨_, he, rfl, rfl, ha⟩
    · exact .inr (.inr ⟨rfl, ha, he⟩)

/-- Everything the checks of DIGEST can answer. -/
theorem digestChecks_cases (n : Nat) (s : State) :
    (∃ t sp, s.slot n = some t ∧ s.view = .ok sp ∧ digestChecks n s = .ok (t, sp)) ∨
    (∃ e, digestChecks n s = .error (.raise e)) ∨
    (∃ k ∈ argsRead (.digest n), s.argw[k] = false ∧
      digestChecks n s = .error (.unwritten k)) := by
  unfold digestChecks
  rcases s.checkArgs_cases (.digest n) with ⟨ha, -⟩ | ⟨k, hk, hw, -, ha⟩ <;> rw [ha]
  · rcases s.tableFor_cases n with ⟨t, ht, he⟩ | ⟨-, he⟩ <;> simp only [he, bind_ok, bind_error]
    · rcases s.view_cases with ⟨sp, hv, -⟩ | ⟨-, hv⟩ | ⟨-, -, hv⟩ <;>
        simp only [hv, bind_ok, bind_error]
      · exact .inl ⟨t, sp, ht, rfl, rfl⟩
      · exact .inr (.inl ⟨_, rfl⟩)
      · exact .inr (.inl ⟨_, rfl⟩)
    · exact .inr (.inl ⟨_, rfl⟩)
  · exact .inr (.inr ⟨k, hk, hw, rfl⟩)

/-- Everything the checks of AUPDATE can answer. -/
theorem aupdateChecks_cases (a : Nat) (s : State) :
    (∃ c t sp, s.context a = some c ∧ s.slot c.tsel.toNat = some t ∧ s.view = .ok sp ∧
      aupdateChecks a s = .ok (c, t, sp)) ∨
    (∃ e, aupdateChecks a s = .error (.raise e)) ∨
    (∃ k ∈ argsRead (.aupdate a), s.argw[k] = false ∧
      aupdateChecks a s = .error (.unwritten k)) := by
  unfold aupdateChecks
  rcases s.contextFor_cases a with ⟨c, hc, he⟩ | ⟨-, he⟩ <;> simp only [he, bind_ok, bind_error]
  · rcases s.checkArgs_cases (.aupdate a) with ⟨ha, -⟩ | ⟨k, hk, hw, -, ha⟩ <;> rw [ha]
    · rcases s.tableFor_cases c.tsel.toNat with ⟨t, ht, he⟩ | ⟨-, he⟩ <;>
        simp only [he, bind_ok, bind_error]
      · rcases s.view_cases with ⟨sp, hv, -⟩ | ⟨-, hv⟩ | ⟨-, -, hv⟩ <;>
          simp only [hv, bind_ok, bind_error]
        · exact .inl ⟨c, t, sp, hc, ht, rfl, rfl⟩
        · exact .inr (.inl ⟨_, rfl⟩)
        · exact .inr (.inl ⟨_, rfl⟩)
      · exact .inr (.inl ⟨_, rfl⟩)
    · exact .inr (.inr ⟨k, hk, hw, rfl⟩)
  · exact .inr (.inl ⟨_, rfl⟩)

/-- Everything the checks of ADIGESTB can answer. -/
theorem adigestbChecks_cases (a : Nat) (s : State) :
    (∃ c, s.context a = some c ∧ (∀ k < 4, s.admits (s.argU 0 + k) = true) ∧
      adigestbChecks a s = .ok (c.seed, ⟨s.argU 0, 4⟩)) ∨
    (∃ e, adigestbChecks a s = .error (.raise e)) ∨
    (∃ k ∈ argsRead (.adigestb a), s.argw[k] = false ∧
      adigestbChecks a s = .error (.unwritten k)) := by
  unfold adigestbChecks
  rcases s.contextFor_cases a with ⟨c, hc, he⟩ | ⟨-, he⟩ <;> simp only [he, bind_ok, bind_error]
  · rcases s.checkArgs_cases (.adigestb a) with ⟨ha, -⟩ | ⟨k, hk, hw, -, ha⟩ <;> rw [ha]
    · rcases s.checkSpan_cases ⟨s.argU 0, 4⟩ with ⟨hm, he⟩ | ⟨-, he⟩ <;>
        simp only [he, bind_ok, bind_error]
      · exact .inl ⟨c, hc, hm, rfl⟩
      · exact .inr (.inl ⟨_, rfl⟩)
    · exact .inr (.inr ⟨k, hk, hw, rfl⟩)
  · exact .inr (.inl ⟨_, rfl⟩)

/-- What a finished command leaves: its write completed, an error, or a recorded model fault. -/
def Ends (i : Instr) (s : State) (r : Host.Outcome State Fault Refusal) : Prop :=
  (∃ u, Writes i s u ∧ r = .next u.complete) ∨
  (∃ e, r = .next (s.raise e)) ∨
  (∃ k ∈ argsRead i, s.argw[k] = false ∧ r = .next (s.recordUnwrittenArg k))

theorem execTbuild_ends (n : Nat) (s : State) : Ends (.tbuild n) s (execTbuild n s) := by
  unfold execTbuild
  rcases s.checkArgs_cases (.tbuild n) with ⟨ha, -⟩ | ⟨k, hk, hw, -, ha⟩ <;> rw [ha]
  · simp only [bind_ok]
    split
    · exact .inr (.inl ⟨_, rfl⟩)
    · split
      · exact .inr (.inl ⟨_, rfl⟩)
      · rename_i h1 h2
        simp only [not_or, not_le, ge_iff_le] at h1
        refine .inl ⟨_, .tbuild h1.1 h1.2 ?_, rfl⟩
        cases h : s.slot n with
        | none => rfl
        | some t => exact absurd ((s.tvalid_iff n).2 ⟨t, h⟩) h2
  · exact .inr (.inr ⟨k, hk, hw, rfl⟩)

theorem execTread_ends (n : Nat) (s : State) : Ends (.tread n) s (execTread n s) := by
  unfold execTread
  rcases s.checkArgs_cases (.tread n) with ⟨ha, -⟩ | ⟨k, hk, hw, -, ha⟩ <;> rw [ha]
  · rcases s.tableFor_cases n with ⟨t, ht, he⟩ | ⟨-, he⟩ <;> simp only [he, bind_ok, bind_error]
    · split
      · exact .inl ⟨_, .tread ht ‹_›, rfl⟩
      · exact .inr (.inl ⟨_, rfl⟩)
    · exact .inr (.inl ⟨_, rfl⟩)
  · exact .inr (.inr ⟨k, hk, hw, rfl⟩)

theorem execDigest_ends (n : Nat) (s : State) : Ends (.digest n) s (execDigest n s) := by
  unfold execDigest
  rcases digestChecks_cases n s with ⟨t, sp, ht, hv, he⟩ | ⟨e, he⟩ | ⟨k, hk, hw, he⟩ <;> rw [he]
  · exact .inl ⟨_, .digest ht hv, rfl⟩
  · exact .inr (.inl ⟨_, rfl⟩)
  · exact .inr (.inr ⟨k, hk, hw, rfl⟩)

theorem execAbind_ends (a n : Nat) (s : State) : Ends (.abind a n) s (execAbind a n s) := by
  unfold execAbind
  rcases s.contextFor_cases a with ⟨c, hc, he⟩ | ⟨-, he⟩ <;> simp only [he, bind_ok, bind_error]
  · rw [s.checkArgs_ok (by simp [argsRead])]
    rcases s.tableFor_cases n with ⟨t, ht, he⟩ | ⟨-, he⟩ <;> simp only [he, bind_ok, bind_error]
    · exact .inl ⟨_, .abind hc ht, rfl⟩
    · exact .inr (.inl ⟨_, rfl⟩)
  · exact .inr (.inl ⟨_, rfl⟩)

theorem execAreset_ends (a : Nat) (s : State) : Ends (.areset a) s (execAreset a s) := by
  unfold execAreset
  rcases s.contextFor_cases a with ⟨c, hc, he⟩ | ⟨-, he⟩ <;> simp only [he, bind_ok, bind_error]
  · rw [s.checkArgs_ok (by simp [argsRead])]
    exact .inl ⟨_, .areset hc, rfl⟩
  · exact .inr (.inl ⟨_, rfl⟩)

theorem execAupdate_ends (a : Nat) (s : State) : Ends (.aupdate a) s (execAupdate a s) := by
  unfold execAupdate
  rcases aupdateChecks_cases a s with ⟨c, t, sp, hc, ht, hv, he⟩ | ⟨e, he⟩ | ⟨k, hk, hw, he⟩ <;>
    rw [he]
  · exact .inl ⟨_, .aupdate hc ht hv, rfl⟩
  · exact .inr (.inl ⟨_, rfl⟩)
  · exact .inr (.inr ⟨k, hk, hw, rfl⟩)

theorem execAdigest_ends (a : Nat) (s : State) : Ends (.adigest a) s (execAdigest a s) := by
  unfold execAdigest
  rcases s.contextFor_cases a with ⟨c, hc, he⟩ | ⟨-, he⟩ <;> simp only [he, bind_ok, bind_error]
  · rw [s.checkArgs_ok (by simp [argsRead])]
    exact .inl ⟨_, .adigest hc, rfl⟩
  · exact .inr (.inl ⟨_, rfl⟩)

theorem execAdigestb_ends (a : Nat) (s : State) : Ends (.adigestb a) s (execAdigestb a s) := by
  unfold execAdigestb
  rcases adigestbChecks_cases a s with ⟨c, hc, hm, he⟩ | ⟨e, he⟩ | ⟨k, hk, hw, he⟩ <;> rw [he]
  · exact .inl ⟨_, .adigestb hc hm, rfl⟩
  · exact .inr (.inl ⟨_, rfl⟩)
  · exact .inr (.inr ⟨k, hk, hw, rfl⟩)

/-- Everything a command can do. -/
theorem exec_ends (i : Instr) (s : State) : Ends i s (exec i s) := by
  cases i with
  | tbuild n => exact execTbuild_ends n s
  | tread n => exact execTread_ends n s
  | digest n => exact execDigest_ends n s
  | abind a n => exact execAbind_ends a n s
  | areset a => exact execAreset_ends a s
  | aupdate a => exact execAupdate_ends a s
  | adigest a => exact execAdigest_ends a s
  | adigestb a => exact execAdigestb_ends a s

/-- Every command answers a next state, with BUSY = 0. -/
theorem exec_next (i : Instr) (s : State) : ∃ t, exec i s = .next t ∧ t.inFlight = none := by
  rcases exec_ends i s with ⟨u, -, h⟩ | ⟨e, h⟩ | ⟨k, -, -, h⟩ <;> exact ⟨_, h, rfl⟩

end Sys2Proof.Machine
end

