-- ==== Sys2Proof/Laws/HostPort.lean ====
section
/-! SUPPORT. What a host action can do, and what a command in flight is shielded from. -/

namespace Sys2Proof.Machine

/-- A register at one of the eight offsets of a word-aligned window is reached by an aligned access. -/
theorem State.regAt_offset (s : State) (r : Reg) (h : s.regBase % 4 = 0) :
    s.regAt (s.regBase + r.offset) 4 = some r := by
  have h4 : r.offset % 4 = 0 := by
    cases r with
    | arg i => simp [Reg.offset]
    | cmd => rfl
    | result => rfl
    | status => rfl
  have hr : regOfOffset r.offset = some r := by
    cases r with
    | arg i => revert i; decide
    | cmd => rfl
    | result => rfl
    | status => rfl
  unfold regAt
  rw [if_pos ⟨rfl, by omega, by omega⟩, Nat.add_sub_cancel_left, hr]

/-- A load of a register changes at most the record of reads, the count of draws and the faults. -/
theorem State.readReg_frame (s : State) (r : Reg) :
    s.readReg r = { s with
      hostReads := (s.readReg r).hostReads, draws := (s.readReg r).draws,
      faults := (s.readReg r).faults } := by
  unfold readReg
  split <;> (try split) <;> (try split) <;> rfl

theorem State.peekByte_frame (s : State) (a : Nat) :
    s.peekByte a = { s with hostReads := (s.peekByte a).hostReads, draws := (s.peekByte a).draws } := by
  unfold peekByte
  split <;> rfl

/-- While a command is in flight, a host action changes nothing but the records of the run and data
memory outside the bytes in use: the operands and stores of the command stay (R180 to R183, R53). -/
theorem hostAct_busy_frame {s t : State} {a : HostAction} (hb : s.busy = true)
    (h : hostAct s a = .next t) :
    t = { s with hostReads := t.hostReads, draws := t.draws, faults := t.faults, mem := t.mem } ∧
    (t.mem = s.mem ∨ ∃ x b, a = .place x b ∧ s.admits x = true ∧ s.inUse x = false ∧
      t.mem = s.mem.write x b) := by
  cases a with
  | load addr size =>
    simp only [hostAct] at h
    split at h
    · rename_i r _
      cases h
      have hf := s.readReg_frame r
      exact ⟨by rw [hf], .inl (by rw [hf])⟩
    · cases h
  | store addr size v =>
    simp only [hostAct] at h
    split at h
    · unfold State.storeReg at h
      split at h <;> simp_all
    · cases h
  | peek x =>
    simp only [hostAct] at h
    split at h
    · cases h
      have hf := s.peekByte_frame x
      exact ⟨by rw [hf], .inl (by rw [hf])⟩
    · cases h
  | place x b =>
    simp only [hostAct] at h
    split at h
    · split at h
      · cases h
      · cases h
        exact ⟨rfl, .inr ⟨x, b, rfl, ‹_›, by simp_all, rfl⟩⟩
    · cases h
  | reset =>
    simp only [hostAct, hb, if_true] at h
    cases h

/-- All the host does while a command is in flight leaves the block's own state as it was. -/
theorem hostActs_busy_frame {s t : State} {as : List HostAction} (hb : s.busy = true)
    (h : hostActs s as = .next t) :
    t = { s with hostReads := t.hostReads, draws := t.draws, faults := t.faults, mem := t.mem } := by
  induction as generalizing s with
  | nil => cases h; rfl
  | cons a as ih =>
    simp only [hostActs] at h
    split at h
    · rename_i u hu
      have hf := (hostAct_busy_frame hb hu).1
      have hub : u.busy = true := by rw [hf]; exact hb
      have := ih hub h
      rw [this]
      rw [hf]
    · cases h
    · cases h

/-- A property that every admitted store keeps holds after all the host does meanwhile. -/
theorem hostActs_busy_mem {P : Memory → Prop} {s t : State} {as : List HostAction}
    (hb : s.busy = true) (h : hostActs s as = .next t) (h0 : P s.mem)
    (hw : ∀ m x b, P m → s.admits x = true → P (m.write x b)) : P t.mem := by
  induction as generalizing s with
  | nil => cases h; exact h0
  | cons a as ih =>
    simp only [hostActs] at h
    split at h
    · rename_i u hu
      obtain ⟨hf, hm⟩ := hostAct_busy_frame hb hu
      have hub : u.busy = true := by rw [hf]; exact hb
      have hua : ∀ x, u.admits x = s.admits x := by intro x; rw [hf]; rfl
      refine ih hub h ?_ (by intro m x b; rw [hua]; exact hw m x b)
      rcases hm with hm | ⟨x, b, -, hx, -, hm⟩
      · rw [hm]; exact h0
      · rw [hm]; exact hw _ x b h0 hx
    · cases h
    · cases h

/-- Everything a host action can do. -/
inductive Acts : State → HostAction → State → Prop where
  /-- Loads, reads of data memory, and stores that are ignored: only the records of the run change. -/
  | record {s t : State} {a : HostAction} (hr : a ≠ .reset) (hc : ∀ m z v, a = .store m z v →
      s.regAt m z ≠ some .cmd)
      (h : t = { s with hostReads := t.hostReads, draws := t.draws, faults := t.faults }) :
      Acts s a t
  /-- A write of an ARG register. -/
  | arg {s : State} {addr size : Nat} {v : Word} {i : Fin 5} (hb : s.busy = false)
      (hr : s.regAt addr size = some (.arg i)) : Acts s (.store addr size v) (s.writeArg i v)
  /-- A write of CMD. -/
  | cmd {s t : State} {addr size : Nat} {v : Word} (hb : s.busy = false)
      (hr : s.regAt addr size = some .cmd) (h : runWord v (s.start v) = .next t) :
      Acts s (.store addr size v) t
  /-- A write of one data-memory byte. -/
  | place {s : State} {a : Nat} {b : Byte} (ha : s.admits a = true) (hu : s.inUse a = false) :
      Acts s (.place a b) (s.storeBytes a [b])
  /-- The reset input. -/
  | reset {s : State} (hb : s.busy = false) : Acts s .reset s.applyReset

theorem hostAct_acts {s t : State} {a : HostAction} (h : hostAct s a = .next t) : Acts s a t := by
  cases a with
  | load addr size =>
    simp only [hostAct] at h
    split at h
    · cases h
      exact .record (by simp) (by simp) (s.readReg_frame _)
    · cases h
  | store addr size v =>
    simp only [hostAct] at h
    split at h
    · rename_i r hr
      cases r with
      | arg i =>
        simp only [State.storeReg] at h
        split at h
        · cases h
        · cases h; exact .arg (by simp_all) hr
      | cmd =>
        simp only [State.storeReg] at h
        split at h
        · cases h
        · exact .cmd (by simp_all) hr h
      | result => cases h; exact .record (by simp) (by rintro m z w ⟨⟩; simp [hr]) rfl
      | status => cases h; exact .record (by simp) (by rintro m z w ⟨⟩; simp [hr]) rfl
    · cases h
  | peek x =>
    simp only [hostAct] at h
    split at h
    · cases h
      refine .record (by simp) (by simp) ?_
      conv => lhs; rw [s.peekByte_frame x]
      have : (s.peekByte x).faults = s.faults := by rw [s.peekByte_frame x]
      rw [this]
    · cases h
  | place x b =>
    simp only [hostAct] at h
    split at h
    · split at h
      · cases h
      · cases h; exact .place ‹_› (by simp_all)
    · cases h
  | reset =>
    simp only [hostAct] at h
    split at h
    · cases h
    · cases h; exact .reset (by simp_all)

/-- A word that decodes runs its command. -/
theorem runWord_ok {w : Word} {i : Instr} (h : decode w = .ok i) (s : State) :
    runWord w s = exec i s := by
  unfold runWord; rw [h]

/-- A word that is no command raises ILLEGAL_COMMAND. -/
theorem runWord_error {w : Word} {e : DecodeError} (h : decode w = .error e) (s : State) :
    runWord w s = .next (s.raise .illegalCommand) := by
  unfold runWord; rw [h]

/-- A word run to its completion leaves BUSY = 0. -/
theorem runWord_next (w : Word) (s : State) : ∃ t, runWord w s = .next t ∧ t.inFlight = none := by
  cases h : decode w with
  | ok i => rw [runWord_ok h]; exact exec_next i s
  | error e => rw [runWord_error h]; exact ⟨_, rfl, rfl⟩

/-! A command whose checks pass ends with OK and no model fault. -/

theorem execDigest_passes {n : Nat} {s : State} {r : Table × Span} (h : digestChecks n s = .ok r) :
    ∃ t, exec (.digest n) s = .next t ∧ t.code = codeOk ∧ t.faults = s.faults := by
  simp only [exec, execDigest, h, bind_ok, State.finish_ok]
  exact ⟨_, rfl, rfl, rfl⟩

theorem execAupdate_passes {a : Nat} {s : State} {r : Context × Table × Span}
    (h : aupdateChecks a s = .ok r) :
    ∃ t, exec (.aupdate a) s = .next t ∧ t.code = codeOk ∧ t.faults = s.faults := by
  simp only [exec, execAupdate, h, bind_ok, State.finish_ok]
  exact ⟨_, rfl, rfl, rfl⟩

theorem execAdigestb_passes {a : Nat} {s : State} {r : Word × Span} (h : adigestbChecks a s = .ok r) :
    ∃ t, exec (.adigestb a) s = .next t ∧ t.code = codeOk ∧ t.faults = s.faults := by
  simp only [exec, execAdigestb, h, bind_ok, State.finish_ok]
  exact ⟨_, rfl, rfl, rfl⟩

/-- A command that has a byte in use passes its checks (log 14). -/
theorem exec_passes_of_usedSpan {i : Instr} {s : State} {sp : Span} (h : usedSpan i s = some sp) :
    ∃ t, exec i s = .next t ∧ t.code = codeOk ∧ t.faults = s.faults := by
  cases i with
  | digest n =>
    cases hc : digestChecks n s with
    | ok r => exact execDigest_passes hc
    | error e => simp [usedSpan, hc, Except.toOption] at h
  | aupdate a =>
    cases hc : aupdateChecks a s with
    | ok r => exact execAupdate_passes hc
    | error e => simp [usedSpan, hc, Except.toOption] at h
  | adigestb a =>
    cases hc : adigestbChecks a s with
    | ok r => exact execAdigestb_passes hc
    | error e => simp [usedSpan, hc, Except.toOption] at h
  | tbuild n => cases h
  | tread n => cases h
  | abind a n => cases h
  | areset a => cases h
  | adigest a => cases h

/-- What the host does while no command is in flight leaves none in flight. -/
theorem hostAct_idle {s t : State} {a : HostAction} (hb : s.inFlight = none)
    (h : hostAct s a = .next t) : t.inFlight = none := by
  cases hostAct_acts h with
  | record _ _ h => rw [h]; exact hb
  | arg _ _ => exact hb
  | cmd _ _ h =>
    obtain ⟨u, hu, hi⟩ := runWord_next _ _
    rw [hu] at h; cases h; exact hi
  | place _ _ => exact hb
  | reset _ => rfl

/-- One entry of the coming actions, from BUSY = 0 to BUSY = 0 (R178). -/
theorem hostEvent_idle {s t : State} {e : HostEvent} (hb : s.inFlight = none)
    (h : hostEvent s e = .next t) : t.inFlight = none := by
  cases e with
  | act a => exact hostAct_idle hb h
  | cmd w during =>
    simp only [hostEvent] at h
    split at h
    · cases h
    · split at h
      · rename_i u hu
        obtain ⟨v, hv, hi⟩ := runWord_next w u
        rw [hv] at h; cases h; exact hi
      · cases h
      · cases h

end Sys2Proof.Machine
end

