-- ==== Sys2Proof/Laws/Pending.lean ====
section
/-! SUPPORT. No command and no host action reads or writes the host's coming actions (10_state R35: the
block takes its commands one by one, in the order they come). -/

namespace Sys2Proof.Machine

/-- `s` with other coming actions. -/
def State.withPending (s : State) (p : List HostEvent) : State := { s with pending := p }

/-- The outcome with other coming actions in its state. -/
def mapPending (p : List HostEvent) :
    Host.Outcome State Fault Refusal → Host.Outcome State Fault Refusal
  | .next t => .next (t.withPending p)
  | .fault f => .fault f
  | .refused r => .refused r

@[simp] theorem mapPending_next (p : List HostEvent) (t : State) :
    mapPending p (.next t) = .next (t.withPending p) := rfl

@[simp] theorem State.withPending_pending (s : State) (p : List HostEvent) :
    (s.withPending p).pending = p := rfl

@[simp] theorem State.withPending_self (s : State) : s.withPending s.pending = s := rfl

@[simp] theorem State.withPending_withPending (s : State) (p q : List HostEvent) :
    (s.withPending p).withPending q = s.withPending q := rfl

/-- A command's end commutes with the coming actions where its checks and its write do. -/
theorem State.finish_withPending (s : State) (p : List HostEvent) {r r' : Except Stop State}
    (h : r' = r.map (·.withPending p)) :
    (s.withPending p).finish r' = mapPending p (s.finish r) := by
  subst h
  cases r with
  | ok u => rfl
  | error x => cases x <;> rfl

theorem State.checkArgs_withPending (s : State) (p : List HostEvent) (i : Instr) :
    (s.withPending p).checkArgs i = s.checkArgs i := by cases i <;> rfl

theorem digestChecks_withPending (n : Nat) (s : State) (p : List HostEvent) :
    digestChecks n (s.withPending p) = digestChecks n s := rfl

theorem aupdateChecks_withPending (a : Nat) (s : State) (p : List HostEvent) :
    aupdateChecks a (s.withPending p) = aupdateChecks a s := rfl

theorem adigestbChecks_withPending (a : Nat) (s : State) (p : List HostEvent) :
    adigestbChecks a (s.withPending p) = adigestbChecks a s := rfl

theorem exec_withPending (i : Instr) (s : State) (p : List HostEvent) :
    exec i (s.withPending p) = mapPending p (exec i s) := by
  cases i with
  | tbuild n =>
    refine s.finish_withPending p ?_
    rw [s.checkArgs_withPending]
    cases s.checkArgs (.tbuild n) with
    | error e => rfl
    | ok u =>
      simp only [bind_ok]
      by_cases h : n = 0 ∨ n ≥ s.numSlots
      · rw [if_pos h]; exact if_pos h
      · rw [if_neg h]
        refine (if_neg h).trans ?_
        by_cases h' : s.tvalid n = true
        · rw [if_pos h']; exact if_pos h'
        · rw [if_neg h']; exact if_neg h'
  | tread n =>
    refine s.finish_withPending p ?_
    rw [s.checkArgs_withPending]
    cases s.checkArgs (.tread n) with
    | error e => rfl
    | ok u =>
      rcases s.tableFor_cases n with ⟨t, -, ht⟩ | ⟨-, ht⟩
      · have ht' : (s.withPending p).tableFor n = .ok t := ht
        simp only [bind_ok, ht, ht']
        by_cases h : s.argU 0 < 256
        · rw [dif_pos h]; exact dif_pos h
        · rw [dif_neg h]; exact dif_neg h
      · have ht' : (s.withPending p).tableFor n = .error (.raise .invalidTable) := ht
        simp only [bind_ok, ht, ht']; rfl
  | digest n =>
    refine s.finish_withPending p ?_
    rw [digestChecks_withPending]
    cases digestChecks n s <;> rfl
  | abind a n =>
    refine s.finish_withPending p ?_
    rw [s.checkArgs_withPending, s.checkArgs_ok (by simp [argsRead])]
    change (s.contextFor a >>= fun _ => _) = _
    rcases s.contextFor_cases a with ⟨c, -, hc⟩ | ⟨-, hc⟩ <;> rw [hc]
    · simp only [bind_ok]
      change (s.tableFor n >>= fun _ => _) = _
      rcases s.tableFor_cases n with ⟨t, -, ht⟩ | ⟨-, ht⟩ <;> rw [ht] <;> rfl
    · rfl
  | areset a =>
    refine s.finish_withPending p ?_
    rw [s.checkArgs_withPending, s.checkArgs_ok (by simp [argsRead])]
    change (s.contextFor a >>= fun _ => _) = _
    rcases s.contextFor_cases a with ⟨c, -, hc⟩ | ⟨-, hc⟩ <;> rw [hc] <;> rfl
  | aupdate a =>
    refine s.finish_withPending p ?_
    rw [aupdateChecks_withPending]
    cases aupdateChecks a s <;> rfl
  | adigest a =>
    refine s.finish_withPending p ?_
    rw [s.checkArgs_withPending, s.checkArgs_ok (by simp [argsRead])]
    change (s.contextFor a >>= fun _ => _) = _
    rcases s.contextFor_cases a with ⟨c, -, hc⟩ | ⟨-, hc⟩ <;> rw [hc] <;> rfl
  | adigestb a =>
    refine s.finish_withPending p ?_
    rw [adigestbChecks_withPending]
    cases adigestbChecks a s <;> rfl

theorem runWord_withPending (w : Word) (s : State) (p : List HostEvent) :
    runWord w (s.withPending p) = mapPending p (runWord w s) := by
  cases h : decode w with
  | ok i => rw [runWord_ok h, runWord_ok h, exec_withPending]
  | error e => rw [runWord_error h, runWord_error h]; rfl

theorem State.readReg_withPending (s : State) (p : List HostEvent) (r : Reg) :
    (s.withPending p).readReg r = (s.readReg r).withPending p := by
  have hb : (s.withPending p).busy = s.busy := rfl
  have hw : (s.withPending p).argw = s.argw := rfl
  have hr : (s.withPending p).resw = s.resw := rfl
  cases r with
  | arg i => simp only [readReg, hw]; cases s.argw[i] <;> rfl
  | cmd => rfl
  | result => simp only [readReg, hb, hr]; cases s.resw <;> cases s.busy <;> rfl
  | status => simp only [readReg, hb]; cases s.busy <;> rfl

theorem State.peekByte_withPending (s : State) (p : List HostEvent) (a : Nat) :
    (s.withPending p).peekByte a = (s.peekByte a).withPending p := by
  have h : (s.withPending p).storing a = s.storing a := rfl
  unfold peekByte
  rw [h]
  cases s.storing a <;> rfl

theorem hostAct_withPending (s : State) (p : List HostEvent) (a : HostAction) :
    hostAct (s.withPending p) a = mapPending p (hostAct s a) := by
  cases a with
  | load addr size =>
    have h : (s.withPending p).regAt addr size = s.regAt addr size := rfl
    simp only [hostAct, h]
    cases s.regAt addr size with
    | none => rfl
    | some r => simp only [s.readReg_withPending, mapPending_next]
  | store addr size v =>
    have h : (s.withPending p).regAt addr size = s.regAt addr size := rfl
    have hb : (s.withPending p).busy = s.busy := rfl
    simp only [hostAct, h]
    cases s.regAt addr size with
    | none => rfl
    | some r =>
      cases r with
      | arg i => simp only [State.storeReg, hb]; cases s.busy <;> rfl
      | cmd =>
        simp only [State.storeReg, hb]
        cases s.busy
        · exact runWord_withPending v (s.start v) p
        · rfl
      | result => rfl
      | status => rfl
  | peek x =>
    have h : (s.withPending p).admits x = s.admits x := rfl
    simp only [hostAct, h, s.peekByte_withPending]
    cases s.admits x <;> rfl
  | place x b =>
    have h : (s.withPending p).admits x = s.admits x := rfl
    have hu : (s.withPending p).inUse x = s.inUse x := rfl
    simp only [hostAct, h, hu]
    cases s.admits x
    · rfl
    · cases s.inUse x <;> rfl
  | reset =>
    have hb : (s.withPending p).busy = s.busy := rfl
    simp only [hostAct, hb]
    cases s.busy <;> rfl

theorem hostActs_withPending (s : State) (p : List HostEvent) (as : List HostAction) :
    hostActs (s.withPending p) as = mapPending p (hostActs s as) := by
  induction as generalizing s with
  | nil => rfl
  | cons a as ih =>
    simp only [hostActs, hostAct_withPending]
    cases hostAct s a with
    | next t => exact ih t
    | fault f => rfl
    | refused r => rfl

/-- One entry of the coming actions, done with others behind it. -/
theorem hostEvent_withPending (s : State) (p : List HostEvent) (e : HostEvent) :
    hostEvent (s.withPending p) e = mapPending p (hostEvent s e) := by
  cases e with
  | act a => exact hostAct_withPending s p a
  | cmd w during =>
    have hb : (s.withPending p).busy = s.busy := rfl
    have h : hostActs ((s.withPending p).start w) during = mapPending p (hostActs (s.start w) during) :=
      hostActs_withPending (s.start w) p during
    simp only [hostEvent, hb, h]
    cases s.busy
    · cases hostActs (s.start w) during with
      | next t => exact runWord_withPending w t p
      | fault f => rfl
      | refused r => rfl
    · rfl

end Sys2Proof.Machine
end

