-- ==== Sys2Proof/Laws/PerInstr.lean ====
section
/-! SUPPORT. What holds of each command as syntax, one lemma for each constructor. -/

namespace Sys2Proof.Laws.EncodedOp

/-- The low byte of a command's word is its OP value and names its operation back, and the RSVD byte is
0 (30_encoding R60, R61, R66). -/
def Statement (i : Instr) : Prop :=
  opField (encode i) = i.op.code ∧ Op.ofCode i.op.code = some i.op ∧ rsvdField (encode i) = 0#8

/-- The fields of four bytes put together. -/
theorem append_fields (a b c : Byte) :
    opField (0#8 ++ a ++ b ++ c) = c ∧ rsvdField (0#8 ++ a ++ b ++ c) = 0#8 := by
  constructor <;> ext k hk <;>
    simp only [opField, rsvdField, BitVec.getElem_extractLsb', BitVec.getLsbD_append]
  · rw [if_pos (by omega), Nat.zero_add, BitVec.getLsbD_eq_getElem hk]
  · rw [if_neg (by omega), if_neg (by omega), if_neg (by omega)]; simp

theorem of_op (i : Instr) : Statement i :=
  ⟨(append_fields _ _ _).1, by cases i <;> rfl, (append_fields _ _ _).2⟩

theorem tbuild (slot : Nat) : Statement (.tbuild slot) := of_op _
theorem tread (slot : Nat) : Statement (.tread slot) := of_op _
theorem digest (slot : Nat) : Statement (.digest slot) := of_op _
theorem abind (acc slot : Nat) : Statement (.abind acc slot) := of_op _
theorem areset (acc : Nat) : Statement (.areset acc) := of_op _
theorem aupdate (acc : Nat) : Statement (.aupdate acc) := of_op _
theorem adigest (acc : Nat) : Statement (.adigest acc) := of_op _
theorem adigestb (acc : Nat) : Statement (.adigestb acc) := of_op _

end Sys2Proof.Laws.EncodedOp
end

