-- ==== Sys2Proof/Laws/RunEnd.lean ====
section
/-! SUPPORT. The end of a run, said once (70_reset_and_hazards R189). -/

namespace Sys2Proof.Machine

theorem runEnd_of_ended {s : State} (h : s.ended) (n : Nat) : runEnd n s = some s := by
  cases n <;> simp only [runEnd, if_pos h]

theorem runEnd_zero_of_not_ended {s : State} (h : ¬ s.ended) : runEnd 0 s = none := by
  simp only [runEnd, if_neg h]

theorem runEnd_succ_of_not_ended {s : State} (h : ¬ s.ended) (n : Nat) :
    runEnd (n + 1) s = match step s with
      | .next t => runEnd n t
      | .fault _ => none
      | .refused _ => none := by
  cases hs : step s <;> simp only [runEnd, if_neg h, hs]

/-- A step that takes its next action is that action, done with the rest still coming. -/
theorem step_cons {s : State} {e : HostEvent} {rest : List HostEvent} (h : s.pending = e :: rest) :
    step s = hostEvent (s.withPending rest) e := by
  unfold step; rw [h]; rfl

/-- A step keeps BUSY = 0. -/
theorem step_idle {s t : State} (hb : s.inFlight = none) (h : step s = .next t) :
    t.inFlight = none := by
  cases hp : s.pending with
  | nil =>
    simp only [step, hp, idle, hb] at h
    cases h; exact hb
  | cons e rest =>
    rw [step_cons hp] at h
    exact hostEvent_idle (s := s.withPending rest) hb h

end Sys2Proof.Machine
end

