-- ==== Sys2Proof/Laws/Step.lean ====
section
/-! SUPPORT. Everything a step can do, said once. -/

namespace Sys2Proof.Machine

/-- `u` is a state a command of the step from `s` starts in: the block's own stores and registers are
those of `s`, and the data memory has only taken stores to bytes that exist. -/
structure StartsFrom (s u : State) : Prop where
  frame : u = { s with
    pending := u.pending, inFlight := u.inFlight, hostReads := u.hostReads, draws := u.draws,
    faults := u.faults, mem := u.mem }
  mem : ∀ P : Memory → Prop, P s.mem → (∀ m x b, P m → s.admits x = true → P (m.write x b)) → P u.mem

/-- Everything a step can do. -/
inductive Steps : State → State → Prop where
  /-- It runs a command. -/
  | command {s u t : State} {i : Instr} (hs : s.started = some (i, u)) (hr : s.resets = false)
      (hf : StartsFrom s u) (he : exec i u = .next t) : Steps s t
  /-- It takes a command word that is no command. -/
  | illegal {s u : State} (hs : s.started = none) (hr : s.resets = false) (hf : StartsFrom s u) :
      Steps s (u.raise .illegalCommand)
  /-- It is idle. -/
  | idle {s : State} (hs : s.started = none) (hr : s.resets = false) : Steps s s
  /-- It is a host action other than a command and the reset input. -/
  | act {s t : State} {a : HostAction} {rest : List HostEvent} (hp : s.pending = .act a :: rest)
      (hs : s.started = none) (hr : s.resets = false)
      (ha : Acts { s with pending := rest } a t) (hc : a ≠ .reset)
      (hn : ∀ m z v, a = .store m z v →
        s.busy = false → State.regAt { s with pending := rest } m z ≠ some .cmd) : Steps s t
  /-- It is the reset input. -/
  | reset {s : State} {rest : List HostEvent} (hp : s.pending = .act .reset :: rest)
      (hs : s.started = none) (hr : s.resets = true) :
      Steps s (State.applyReset { s with pending := rest })

/-! What a command finds when it starts is what the step's state holds. -/

theorem StartsFrom.slot {s u : State} (h : StartsFrom s u) (n : Nat) : u.slot n = s.slot n := by
  rw [h.frame]; rfl

theorem StartsFrom.context {s u : State} (h : StartsFrom s u) (a : Nat) :
    u.context a = s.context a := by
  rw [h.frame]; rfl

theorem StartsFrom.numSlots {s u : State} (h : StartsFrom s u) : u.numSlots = s.numSlots := by
  rw [h.frame]; rfl

theorem StartsFrom.numAcc {s u : State} (h : StartsFrom s u) : u.numAcc = s.numAcc := by
  rw [h.frame]; rfl

theorem StartsFrom.code {s u : State} (h : StartsFrom s u) : u.code = s.code := by rw [h.frame]

theorem StartsFrom.admits {s u : State} (h : StartsFrom s u) (a : Nat) :
    u.admits a = s.admits a := by
  rw [h.frame]; rfl

theorem StartsFrom.refl (s : State) : StartsFrom s s := ⟨rfl, fun _ h _ => h⟩

theorem toOption_ok {w : Word} {i : Instr} (h : decode w = .ok i) : (decode w).toOption = some i := by
  rw [h]; rfl

theorem toOption_error {w : Word} {e : DecodeError} (h : decode w = .error e) :
    (decode w).toOption = none := by
  rw [h]; rfl

/-- A step that answers a next state is one of these. -/
theorem step_steps {s t : State} (h : step s = .next t) : Steps s t := by
  unfold step at h
  split at h
  · rename_i hp
    have hr : s.resets = false := by simp [State.resets, hp]
    unfold idle at h
    split at h
    · rename_i hf
      cases h
      exact .idle (by simp [State.started, hp, hf]) hr
    · rename_i w hf
      cases hd : decode w with
      | ok i =>
        rw [runWord_ok hd] at h
        exact .command (by simp [State.started, hp, hf, toOption_ok hd]) hr (.refl s) h
      | error e =>
        rw [runWord_error hd] at h
        cases h
        exact .illegal (by simp [State.started, hp, hf, toOption_error hd]) hr (.refl s)
  · rename_i e rest hp
    cases e with
    | cmd w during =>
      have hr : s.resets = false := by simp [State.resets, hp]
      simp only [hostEvent] at h
      split at h
      · cases h
      · rename_i hb
        have hb : s.busy = false := Bool.not_eq_true _ ▸ hb
        split at h
        · rename_i u hu
          have hf : StartsFrom s u := by
            refine ⟨?_, fun P h0 hw => ?_⟩
            · have hx := hostActs_busy_frame rfl hu
              have hi : u.inFlight = some w := by rw [hx]; rfl
              have hq : u.pending = rest := by rw [hx]; rfl
              rw [hi, hq]; exact hx
            · exact hostActs_busy_mem rfl hu h0 hw
          cases hd : decode w with
          | ok i =>
            rw [runWord_ok hd] at h
            exact .command (by simp [State.started, hp, hb, hu, toOption_ok hd]) hr hf h
          | error e =>
            rw [runWord_error hd] at h
            cases h
            exact .illegal (by simp [State.started, hp, hb, hu, toOption_error hd]) hr hf
        · cases h
        · cases h
    | act a =>
      simp only [hostEvent] at h
      have ha := hostAct_acts h
      cases hac : a with
      | reset =>
        subst hac
        cases ha with
        | record hr => exact absurd rfl hr
        | reset hb =>
          exact .reset hp (by simp [State.started, hp]) (by simp [State.resets, hp])
      | store m z v =>
        subst hac
        have hr : s.resets = false := by simp [State.resets, hp]
        by_cases hcmd : s.busy = false ∧ s.regAt m z = some .cmd
        · cases ha with
          | record _ hc => exact absurd hcmd.2 (hc _ _ _ rfl)
          | arg _ hx =>
            have h1 : s.regAt m z = some (.arg _) := hx
            rw [hcmd.2] at h1; cases h1
          | cmd _ _ hw =>
            cases hd : decode v with
            | ok i =>
              rw [runWord_ok hd] at hw
              exact .command (u := State.start { s with pending := rest } v)
                (by simp [State.started, hp, hcmd, toOption_ok hd]) hr ⟨rfl, fun _ h _ => h⟩ hw
            | error e =>
              rw [runWord_error hd] at hw
              cases hw
              exact .illegal (u := State.start { s with pending := rest } v)
                (by simp [State.started, hp, hcmd, toOption_error hd]) hr ⟨rfl, fun _ h _ => h⟩
        · refine .act hp ?_ hr ha (by simp) ?_
          · simp only [State.started, hp]; rw [if_neg hcmd]
          · rintro m' z' v' ⟨⟩ hb hx
            exact hcmd ⟨hb, hx⟩
      | load m z =>
        subst hac
        exact .act hp (by simp [State.started, hp]) (by simp [State.resets, hp]) ha (by simp) (by simp)
      | peek x =>
        subst hac
        exact .act hp (by simp [State.started, hp]) (by simp [State.resets, hp]) ha (by simp) (by simp)
      | place x b =>
        subst hac
        exact .act hp (by simp [State.started, hp]) (by simp [State.resets, hp]) ha (by simp) (by simp)

end Sys2Proof.Machine
end

