-- ==== Sys2Proof/Machine/HostProgram.lean ====
section
/-! DEFINITION. Host programs: the syntax of 30_encoding R70 and the pseudo-instructions of R71, as
lists of host events for a window at `base`. -/

namespace Sys2Proof.Machine

/-- WR reg, value (R70): a 32-bit store to REG_BASE + offset(reg). -/
def wr (base : Nat) (r : Reg) (v : Word) : HostEvent := .act (.store (base + r.offset) 4 v)

/-- RD reg (R70): a 32-bit load. -/
def rd (base : Nat) (r : Reg) : HostEvent := .act (.load (base + r.offset) 4)

/-- A command mnemonic with its fields: WR CMD, encoding (R70). -/
def issue (i : Instr) : HostEvent := .cmd (encode i) []

/-- MEM addr: bytes (R70): sets data memory before the program runs. -/
def memDirective (m : Memory) (a : Nat) (bs : List Byte) : Memory := m.writeBytes a bs

/-- WAIT (R71). BUSY = 0 once the command's own step is done, so one read ends it (log 25). -/
def waitIdle (base : Nat) : HostEvent := rd base .status

/-- BUILD s, p (R71). -/
def pseudoBuild (base slot : Nat) (p : Word) : List HostEvent :=
  [wr base (.arg 0) p, issue (.tbuild slot), waitIdle base]

/-- PEEK s, i (R71). -/
def pseudoPeek (base slot : Nat) (i : Word) : List HostEvent :=
  [wr base (.arg 0) i, issue (.tread slot), waitIdle base, rd base .result]

/-- CRC s, base, size, off, len, seed (R71). -/
def pseudoCrc (base slot : Nat) (addr size off len seed : Word) : List HostEvent :=
  [wr base (.arg 0) addr, wr base (.arg 1) size, wr base (.arg 2) off, wr base (.arg 3) len,
    wr base (.arg 4) seed, issue (.digest slot), waitIdle base, rd base .result]

/-- UPDATE a, base, len (R71). -/
def pseudoUpdate (base acc : Nat) (addr len : Word) : List HostEvent :=
  [wr base (.arg 0) addr, wr base (.arg 1) len, wr base (.arg 2) 0#32, wr base (.arg 3) len,
    issue (.aupdate acc), waitIdle base]

/-- GETCRC a (R71). -/
def pseudoGetcrc (base acc : Nat) : List HostEvent :=
  [issue (.adigest acc), waitIdle base, rd base .result]

/-- GETBYTES a, dest (R71). -/
def pseudoGetbytes (base acc : Nat) (dest : Word) : List HostEvent :=
  [wr base (.arg 0) dest, issue (.adigestb acc), waitIdle base]

end Sys2Proof.Machine
end

