-- ==== Sys2Proof/Tests/Slice0.lean ====
section
/-! SUPPORT. Tests with their expected results from spec/95_test_vectors.md, and a witness for the
hypotheses of each statement of Certificates/Slice0/Obligations.lean. -/

namespace Sys2Proof.Tests

set_option Elab.async false

open Sys2Proof.Machine

/-! ## Helpers -/

/-- "123456789". -/
def digits : List Byte := [0x31#8, 0x32#8, 0x33#8, 0x34#8, 0x35#8, 0x36#8, 0x37#8, 0x38#8, 0x39#8]

/-- The memory of sections 3.7 and 5: "123456789" at 0x1000, "abca" at the top of the address space. -/
def mem0 : Memory :=
  memDirective (memDirective [] 0x1000 digits) 0xFFFFFFFC [0x61#8, 0x62#8, 0x63#8, 0x61#8]

/-- Writes ARG0, ARG1, ... -/
def writeArgs (s : State) (i : Nat) : List Word → State
  | [] => s
  | v :: vs => writeArgs (if h : i < 5 then s.writeArg ⟨i, h⟩ v else s) (i + 1) vs

/-- The state after reset on the test platform with ARG0, ARG1, ... written. -/
def withArgs (vs : List Word) : State := writeArgs (State.resetOn Platform.test mem0) 0 vs

/-- `s` with slot 1 holding build(0x82F63B78) (vectors 6, 15, 16 of section 2.4). -/
def built (s : State) : State := s.setSlot 1 (builtTable 0x82F63B78#32)

/-- `s` with context `a` = (TSEL, SEED). -/
def ctx (s : State) (a : Nat) (tsel : Byte) (seed : Word) : State := s.setContext a ⟨seed, tsel⟩

/-- A field of the next state. -/
def nextField {α : Type} (f : State → α) : Host.Outcome State Fault Refusal → Option α
  | .next t => some (f t)
  | .fault _ => none
  | .refused _ => none

/-- STATUS.CODE and RESULT of the next state. -/
def codeResult (r : Host.Outcome State Fault Refusal) : Option (BitVec 4 × Word) :=
  nextField (fun t => (t.code, t.result)) r

/-- STATUS.CODE and context `a` of the next state. -/
def codeCtx (a : Nat) (r : Host.Outcome State Fault Refusal) : Option (BitVec 4 × Option Context) :=
  nextField (fun t => (t.code, t.context a)) r

/-! ## WellFormed: an ill-formed term for each check (R60) -/

theorem test_wf_accepts_255 : (Instr.abind 255 255).wf = true := by decide
theorem test_wf_tbuild : (Instr.tbuild 256).wf = false := by decide
theorem test_wf_tread : (Instr.tread 256).wf = false := by decide
theorem test_wf_digest : (Instr.digest 256).wf = false := by decide
theorem test_wf_abind_acc : (Instr.abind 256 0).wf = false := by decide
theorem test_wf_abind_slot : (Instr.abind 0 256).wf = false := by decide
theorem test_wf_areset : (Instr.areset 256).wf = false := by decide
theorem test_wf_aupdate : (Instr.aupdate 256).wf = false := by decide
theorem test_wf_adigest : (Instr.adigest 256).wf = false := by decide
theorem test_wf_adigestb : (Instr.adigestb 256).wf = false := by decide

/-! ## Decoding: each row's word written out bit by bit from its pattern RRRRRRRR AAAAAAAA SSSSSSSS
OOOOOOOO (R60, R66), and the words of section 4 that are no command -/

theorem test_decode_tbuild : decode 0b00000000000000000000000100000001#32 = .ok (.tbuild 1) := by decide
theorem test_decode_tread : decode 0b00000000000000001000000000000010#32 = .ok (.tread 128) := by decide
theorem test_decode_digest : decode 0b00000000000000001111111100010000#32 = .ok (.digest 255) := by decide
theorem test_decode_abind : decode 0b00000000000000100000000100100000#32 = .ok (.abind 2 1) := by decide
theorem test_decode_areset : decode 0b00000000111111110000000000100001#32 = .ok (.areset 255) := by decide
theorem test_decode_aupdate : decode 0b00000000000000110000000000100010#32 = .ok (.aupdate 3) := by decide
theorem test_decode_adigest : decode 0b00000000000001000000000000100011#32 = .ok (.adigest 4) := by decide
theorem test_decode_adigestb : decode 0b00000000000000000000000000100100#32 = .ok (.adigestb 0) := by decide
theorem test_decode_rsvd : decode 0x80000010#32 = .error .rsvdNonzero := by decide
theorem test_decode_reserved :
    decode 0x00000000#32 = .error .reservedOp ∧ decode 0x00000003#32 = .error .reservedOp ∧
    decode 0x0000000F#32 = .error .reservedOp ∧ decode 0x00000011#32 = .error .reservedOp ∧
    decode 0x00000025#32 = .error .reservedOp ∧ decode 0x000000FF#32 = .error .reservedOp := by decide
theorem test_decode_unused_slot :
    decode 0x00000121#32 = .error .unusedSlotNonzero ∧ decode 0x00000524#32 = .error .unusedSlotNonzero := by
  decide
theorem test_decode_unused_acc :
    decode 0x00010001#32 = .error .unusedAccNonzero ∧ decode 0x00010010#32 = .error .unusedAccNonzero := by
  decide
theorem test_decodeTableWord : decodeTableWord 32 0x00010120 = some (.abind 1 1) := by decide

/-! ## The tables and the digest (sections 2.1, 2.3, 3.1, 3.3, 3.6) -/

theorem test_default_table :
    (build 0xEDB88320#32)[1] = 0x77073096#32 ∧ (build 0xEDB88320#32)[0x9E] = 0x17B7BE43#32 ∧
    (build 0xEDB88320#32)[255] = 0x2D02EF8D#32 := by decide +kernel
theorem test_other_tables :
    (build 0x82F63B78#32)[1] = 0xF26B8303#32 ∧ (build 0xFFFFFFFF#32)[255] = 0x01FFFFFF#32 ∧
    (build 0x04C11DB7#32)[64] = 0x06A1936C#32 := by decide +kernel
theorem test_digest_of : digestOf defaultTable digits 0#32 = 0xCBF43926#32 ∧
    digestOf defaultTable [0x61#8] 0xFFFFFFFF#32 = 0xC54AAE31#32 ∧
    digestOf (builtTable 0x82F63B78#32) digits 0#32 = 0xE3069283#32 := by decide +kernel
theorem test_digest_zero : digestOf defaultTable [0x9D#8, 0x0A#8, 0xD9#8, 0x6D#8] 0#32 = 0#32 := by
  decide +kernel
theorem test_bitwise_digest : bitwiseDigest 0xEDB88320#32 digits 0#32 = 0xCBF43926#32 := by
  decide +kernel

/-! ## Commands (sections 2.4, 3.7, 5; the vector's number in the comment) -/

-- section 2.4, 1: TBUILD 1 with p = 0x82F63B78
theorem test_tbuild : nextField (fun t => (t.code, (t.slot 1).map fun b => (b.poly, b.at 1, b.at 128)))
    (exec (.tbuild 1) (withArgs [0x82F63B78#32])) =
    some (0#4, some (0x82F63B78#32, 0xF26B8303#32, 0x82F63B78#32)) := by decide +kernel
-- section 2.4, 4, 5, 7
theorem test_tbuild_illegal :
    nextField State.code (exec (.tbuild 0) (withArgs [1#32])) = some 1#4 ∧
    nextField State.code (exec (.tbuild 4) (withArgs [1#32])) = some 1#4 ∧
    nextField (fun t => (t.code, (t.slot 1).map Table.poly)) (exec (.tbuild 1) (built (withArgs [0x04C11DB7#32]))) =
      some (1#4, some 0x82F63B78#32) := by decide +kernel
-- section 2.4, 14, 15
theorem test_tread : codeResult (exec (.tread 0) (withArgs [0xFF#32])) = some (0#4, 0x2D02EF8D#32) ∧
    codeResult (exec (.tread 1) (built (withArgs [1#32]))) = some (0#4, 0xF26B8303#32) := by decide +kernel
-- section 2.4, 17, 20, 21
theorem test_tread_errors :
    nextField State.code (exec (.tread 0) (withArgs [0x100#32])) = some 3#4 ∧
    nextField State.code (exec (.tread 1) (withArgs [0x100#32])) = some 2#4 ∧
    nextField State.code (exec (.tread 4) (withArgs [1#32])) = some 2#4 := by decide +kernel
-- section 3.7, 5, 6, 23, 26
theorem test_digest :
    codeResult (exec (.digest 0) (withArgs [0x1000#32, 9#32, 5#32, 4#32, 0xCBF53A1C#32])) =
      some (0#4, 0xCBF43926#32) ∧
    codeResult (exec (.digest 0) (withArgs [0x1000#32, 9#32, 9#32, 0#32, 0x5A5A5A5A#32])) =
      some (0#4, 0x5A5A5A5A#32) ∧
    codeResult (exec (.digest 0) (withArgs [0xFFFFFFFF#32, 1#32, 0#32, 1#32, 0#32])) =
      some (0#4, 0xE8B7BE43#32) ∧
    codeResult (exec (.digest 0) (withArgs [0xFFFFFFF0#32, 32#32, 15#32, 1#32, 0#32])) =
      some (0#4, 0xE8B7BE43#32) := by decide +kernel
-- section 3.7, 11, 12, 15, 18, 21, 20, 25
theorem test_digest_errors :
    nextField State.code (exec (.digest 1) (withArgs [0x1000#32, -1#32, 0#32, 9#32, 0#32])) = some 2#4 ∧
    nextField State.code (exec (.digest 0) (withArgs [0x1000#32, 9#32, 0#32, 10#32, 0#32])) = some 3#4 ∧
    nextField State.code (exec (.digest 0) (withArgs [0x1000#32, 9#32, -1#32, 1#32, 0#32])) = some 3#4 ∧
    nextField State.code (exec (.digest 0)
      (withArgs [0x1000#32, 0x7FFFFFFF#32, 0x7FFFFFFF#32, 0x7FFFFFFF#32, 0#32])) = some 3#4 ∧
    nextField State.code (exec (.digest 0) (withArgs [0x20000#32, 9#32, 0#32, 10#32, 0#32])) = some 3#4 ∧
    nextField State.code (exec (.digest 0) (withArgs [0xFFF0#32, 32#32, 0#32, 32#32, 0#32])) = some 4#4 ∧
    nextField State.code (exec (.digest 0) (withArgs [0xFFFFFFFF#32, 2#32, 0#32, 2#32, 0#32])) = some 4#4 := by
  decide +kernel
-- section 5, 15, 14
theorem test_abind :
    codeCtx 1 (exec (.abind 1 0) (ctx (built (withArgs [])) 1 1#8 5#32)) = some (0#4, some ⟨0#32, 0#8⟩) ∧
    nextField State.code (exec (.abind 1 1) (withArgs [])) = some 2#4 := by decide +kernel
-- the example of R120; section 4: ABIND 4, 0
theorem test_abind_custom :
    codeCtx 1 (exec (.abind 1 1) (built (withArgs []))) = some (0#4, some ⟨0#32, 1#8⟩) ∧
    nextField State.code (exec (.abind 4 0) (withArgs [])) = some 1#4 := by decide +kernel
-- section 5, 4
theorem test_areset :
    codeCtx 0 (exec (.areset 0) (ctx (withArgs []) 0 0#8 0xCBF43926#32)) = some (0#4, some ⟨0#32, 0#8⟩) := by
  decide +kernel
-- TSEL is kept (R121); section 4: ARESET 255
theorem test_areset_keeps_table :
    codeCtx 1 (exec (.areset 1) (ctx (built (withArgs [])) 1 1#8 7#32)) = some (0#4, some ⟨0#32, 1#8⟩) ∧
    nextField State.code (exec (.areset 255) (withArgs [])) = some 1#4 := by decide +kernel
-- section 5, 7, 10
theorem test_aupdate :
    codeCtx 0 (exec (.aupdate 0) (ctx (withArgs [0x1000#32, 9#32, 3#32, 3#32]) 0 0#8 0x884863D2#32)) =
      some (0#4, some ⟨0x0972D361#32, 0#8⟩) ∧
    codeCtx 1 (exec (.aupdate 1) (ctx (built (withArgs [0x1000#32, 9#32, 0#32, 9#32])) 1 1#8 0#32)) =
      some (0#4, some ⟨0xE3069283#32, 1#8⟩) := by decide +kernel
-- section 5, 11, 13
theorem test_aupdate_errors :
    codeCtx 0 (exec (.aupdate 0) (ctx (withArgs [0x1000#32, 9#32, 3#32, 7#32]) 0 0#8 0x884863D2#32)) =
      some (3#4, some ⟨0x884863D2#32, 0#8⟩) ∧
    codeCtx 0 (exec (.aupdate 0) (ctx (withArgs [0xFFF8#32, 9#32, 0#32, 9#32]) 0 0#8 0x884863D2#32)) =
      some (4#4, some ⟨0x884863D2#32, 0#8⟩) := by decide +kernel
-- section 5, 3; section 4: ADIGEST 4
theorem test_adigest :
    codeResult (exec (.adigest 0) (ctx (withArgs []) 0 0#8 0xCBF43926#32)) = some (0#4, 0xCBF43926#32) ∧
    nextField State.code (exec (.adigest 4) (withArgs [])) = some 1#4 := by decide +kernel
-- section 5, 18
theorem test_adigestb :
    nextField (fun t => (t.code, t.mem.readBytes 0x2000 6))
      (exec (.adigestb 0) (ctx (withArgs [0x2001#32]) 0 0#8 0xCBF43926#32)) =
      some (0#4, [0#8, 0x26#8, 0x39#8, 0xF4#8, 0xCB#8, 0#8]) := by decide +kernel
-- section 5, 20, 21
theorem test_adigestb_bus_error :
    nextField State.code (exec (.adigestb 0) (withArgs [0xFFFFFFFD#32])) = some 4#4 ∧
    nextField (fun t => (t.code, t.mem.read 0xFFFE)) (exec (.adigestb 0)
      (ctx (withArgs [0xFFFE#32]) 0 0#8 0xCBF43926#32)) = some (4#4, 0#8) := by decide +kernel
-- program P5: AUPDATE 2 with ARG3 unwritten; section 3.7: DIGEST 0 with ARG4 unwritten
theorem test_unwritten_arg :
    nextField State.faults (exec (.aupdate 2) (withArgs [0x100#32, 0x28#32, 0#32])) = some [.unwrittenArg 3] ∧
    nextField State.faults (exec (.digest 0) (withArgs [0x1000#32, 9#32, 0#32, 0#32])) =
      some [.unwrittenArg 4] := by decide +kernel

/-! ## Steps and the host -/

-- the very next step runs the word placed, from reset: ADIGEST 3 (section 5, 2)
theorem test_step_runs_word :
    nextField (fun t => (t.code, t.result, t.resw, t.busy)) (step (State.reset.withFetchWord 32 0x00030023)) =
      some (0#4, 0#32, true, false) := by decide +kernel
-- program P4: a reserved OP
theorem test_step_illegal :
    nextField (fun t => statusWord t.code t.busy) (step (State.reset.withFetchWord 32 0x00000003)) = some 1#32 := by
  decide +kernel
-- program P5: RD RESULT before anything wrote it
theorem test_read_unwritten_result :
    nextField (fun t => (t.faults, t.hostReads)) (hostEvent State.reset (rd State.reset.regBase .result)) =
      some ([.unwrittenResult], []) := by decide +kernel
-- WR ARG4 through the window (R29, R70)
theorem test_write_arg4 :
    nextField (fun t => (t.arg[4], t.argw[4], t.argw[0])) (hostEvent State.reset (wr State.reset.regBase (.arg 4) 7#32)) =
      some (7#32, true, false) := by decide +kernel
-- the expansion of CRC 0, 0x1000, 9, 0, 9, 0 is program P1
theorem test_pseudo_crc :
    pseudoCrc 0x40000000 0 0x1000#32 9#32 0#32 9#32 0#32 =
      [.act (.store 0x40000000 4 0x1000#32), .act (.store 0x40000004 4 9#32), .act (.store 0x40000008 4 0#32),
        .act (.store 0x4000000C 4 9#32), .act (.store 0x40000010 4 0#32), .cmd 0x00000010#32 [],
        .act (.load 0x4000001C 4), .act (.load 0x40000018 4)] := by decide
-- reads and a memory write while ADIGESTB 0 runs; a write to one of its bytes is refused (R53, R179)
theorem test_during :
    nextField (fun t => (t.mem.readBytes 0x2000 4, t.mem.read 0x2004, t.hostReads.length))
      (hostEvent (ctx (withArgs [0x2000#32]) 0 0#8 0xCBF43926#32)
        (.cmd 0x00000024#32 [.load 0x4000001C 4, .place 0x2004 9#8])) =
      some ([0x26#8, 0x39#8, 0xF4#8, 0xCB#8], 9#8, 1) ∧
    (match hostEvent (withArgs [0x2000#32]) (.cmd 0x00000024#32 [.place 0x2003 9#8]) with
      | .refused .memoryInUse => true
      | _ => false) = true := by decide +kernel

/-! ## Witnesses: a state and operands that meet the hypotheses of each statement, at a boundary of
each clause -/

/-- A DIGEST view that ends where its buffer ends. -/
def wView : State := withArgs [0x1000#32, 9#32, 5#32, 4#32, 0#32]
/-- A view one byte longer than its buffer. -/
def wRange : State := withArgs [0x1000#32, 9#32, 5#32, 5#32, 0#32]
/-- A view whose last byte would lie at 2^32. -/
def wBus : State := withArgs [0xFFFFFFFF#32, 2#32, 0#32, 2#32, 0#32]
/-- ARG0 at the last place that four bytes fit. -/
def wDest : State := withArgs [0xFFFFFFFC#32]
/-- ARG0 one byte further. -/
def wDestBad : State := withArgs [0xFFFFFFFD#32]
/-- A command in flight. -/
def wBusy (s : State) (w : Word) : State := s.start w
/-- `e` is the host's next action. -/
def wNext (s : State) (e : HostEvent) : State := { s with pending := [e] }

theorem witness_DecodeOfEncodeIsTheCommand : (Instr.abind 255 255).wf = true := by decide
theorem witness_EncodeOfDecodeIsTheWord : decode 0x00FFFF20#32 = .ok (.abind 255 255) := by decide
theorem witness_DecoderTakesExactlyTheEightFormats :
    (∃ i, decode 0x00FFFF20#32 = .ok i) ∧ rsvdField 0x00FFFF20#32 = 0#8 ∧
      opField 0x00FFFF20#32 = 0x20#8 := ⟨⟨.abind 255 255, by decide⟩, by decide, by decide⟩
theorem witness_WordsThatAreNoCommandRaiseIllegalCommand :
    rsvdField 0x01000010#32 ≠ 0#8 ∧ opField 0#32 = 0#8 ∧
    0x03#8 ≤ opField 0x0F#32 ∧ opField 0x0F#32 ≤ 0x0F#8 ∧ 0x11#8 ≤ opField 0x11#32 ∧
    opField 0x1F#32 ≤ 0x1F#8 ∧ 0x25#8 ≤ opField 0x25#32 ∧
    opField 0x00010010#32 = 0x10#8 ∧ accField 0x00010010#32 ≠ 0#8 ∧
    opField 0x00000124#32 = 0x24#8 ∧ slotField 0x00000124#32 ≠ 0#8 := by decide +kernel
theorem witness_StepRunsTheDecodedCommand :
    (wNext State.reset (.cmd 0x21#32 [])).pending = [.cmd 0x21#32 []] ∧
    (wNext State.reset (.cmd 0x21#32 [])).inFlight = none ∧ decode 0x21#32 = .ok (.areset 0) ∧
    decode 0x25#32 = .error .reservedOp ∧
    (wNext (wBusy wView 0x10#32) (.act (.peek 0x1000))).pending = [.act (.peek 0x1000)] := by
  decide +kernel
theorem witness_CmdStoreIssuesTheCommand :
    (wNext State.reset (.act (.store (State.reset.regBase + 0x14) 4 0x21#32))).pending =
      [.act (.store (State.reset.regBase + 0x14) 4 0x21#32)] ∧
    State.reset.inFlight = none ∧ State.reset.regBase % 4 = 0 ∧
    decode 0x21#32 = .ok (.areset 0) ∧ decode 3#32 = .error .reservedOp := by decide +kernel
theorem witness_CommandRunsAfterTheHostsActionsMeanwhile :
    (wNext wDest (.cmd 0x24#32 [.reset])).pending = [.cmd 0x24#32 [.reset]] ∧
    wDest.inFlight = none ∧ decode 0x24#32 = .ok (.adigestb 0) ∧ decode 0x25#32 = .error .reservedOp ∧
    nextField (fun _ => true) (hostActs (wBusy wDest 0x24#32) [.place 0x2001 1#8]) = some true ∧
    nextField (fun _ => true) (hostActs (wBusy wDest 0x25#32) [.place 0xFFFFFFFC 1#8]) = some true ∧
    (match hostAct (wBusy wDest 0x24#32) .reset, hostActs (wBusy wDest 0x24#32) [.reset] with
      | .refused _, .refused _ => true
      | _, _ => false) = true ∧
    (match hostAct (wBusy wDest 0x24#32) (.peek 0x10000), hostActs (wBusy wDest 0x24#32) [.peek 0x10000] with
      | .fault _, .fault _ => true
      | _, _ => false) = true := by decide +kernel
theorem witness_IdleBlockKeepsItsState : State.reset.pending = [] ∧ State.reset.inFlight = none := by
  decide
theorem witness_BuildEntriesZeroAndOneHundredTwentyEight : (0#32 : Word) ≠ 0xFFFFFFFF#32 := by decide
theorem witness_BuildPowerOfTwoEntries : 0 ≤ 7 ∧ 7 ≤ 7 := by decide
theorem witness_TbuildBuildsOnceIntoACustomSlot :
    wDest.written [0] ∧ 3 ≠ 0 ∧ 3 < wDest.numSlots ∧ wDest.tvalid 3 = false ∧
    (built wDest).written [0] ∧ wDest.numSlots ≤ 4 ∧ (built wDest).tvalid 1 = true := by decide +kernel
theorem witness_TreadReadsOneEntry :
    (withArgs [0xFF#32]).slot 0 = some defaultTable ∧
    (withArgs [0xFF#32]).written [0] ∧ (withArgs [0xFF#32]).arg[0] = (0xFF#8 : Byte).setWidth 32 ∧
    wDest.numSlots ≤ 4 ∧ wDest.tvalid 3 = false ∧
    (withArgs [0x100#32]).written [0] ∧ 0 < (withArgs [0x100#32]).numSlots ∧
    (withArgs [0x100#32]).tvalid 0 = true ∧ 255 < (withArgs [0x100#32]).arg[0].toNat :=
  ⟨rfl, by decide +kernel⟩
theorem witness_DigestDigestsTheView :
    wView.slot 0 = some defaultTable ∧
    wView.written [0, 1, 2, 3, 4] ∧ wView.rangeHolds ∧
    wView.viewExists ∧ wView.isView [0x36#8, 0x37#8, 0x38#8, 0x39#8] ∧
    wView.tvalid 3 = false ∧ wView.numSlots ≤ 4 ∧ 0 < wView.numSlots ∧ wView.tvalid 0 = true ∧
    wRange.written [0, 1, 2, 3, 4] ∧ wRange.tvalid 0 = true ∧ ¬ wRange.rangeHolds ∧
    wBus.written [0, 1, 2, 3, 4] ∧ wBus.tvalid 0 = true ∧ wBus.rangeHolds ∧ ¬ wBus.viewExists :=
  ⟨rfl, by decide +kernel⟩
theorem witness_AbindMakesAFreshContext :
    3 < State.reset.numAcc ∧ 0 < 256 ∧ State.reset.tvalid 0 = true ∧ State.reset.numSlots ≤ 4 ∧
    State.reset.tvalid 3 = false ∧ State.reset.numAcc ≤ 4 := by decide +kernel
theorem witness_AresetClearsTheSeedAndKeepsTheTable :
    State.reset.context 3 = some ⟨0#32, 0#8⟩ ∧ State.reset.numAcc ≤ 4 := by decide +kernel
theorem witness_AupdateAbsorbsTheView :
    wView.slot (0#8 : Byte).toNat = some defaultTable ∧
    wView.written [0, 1, 2, 3] ∧ wView.context 3 = some ⟨0#32, 0#8⟩ ∧
    wView.rangeHolds ∧ wView.viewExists ∧
    wView.isView [0x36#8, 0x37#8, 0x38#8, 0x39#8] ∧
    (ctx wView 0 3#8 0#32).context 0 = some ⟨0#32, 3#8⟩ ∧
    (ctx wView 0 3#8 0#32).tvalid (3#8 : Byte).toNat = false ∧
    wRange.written [0, 1, 2, 3] ∧ wRange.context 0 = some ⟨0#32, 0#8⟩ ∧ ¬ wRange.rangeHolds ∧
    wBus.context 0 = some ⟨0#32, 0#8⟩ ∧ wBus.rangeHolds ∧ ¬ wBus.viewExists ∧ wView.numAcc ≤ 4 :=
  ⟨rfl, by decide +kernel⟩
theorem witness_AdigestReadsTheSeed :
    (ctx State.reset 3 0#8 5#32).context 3 = some ⟨5#32, 0#8⟩ ∧ State.reset.numAcc ≤ 4 := by
  decide +kernel
theorem witness_AdigestbStoresFourLittleEndianBytes :
    wDest.mem.wf = true ∧ wDest.written [0] ∧ wDest.context 0 = some ⟨0#32, 0#8⟩ ∧
    (∀ k < 4, wDest.admits (wDest.arg[0].toNat + k) = true) ∧
    (∃ k < 4, wDestBad.admits (wDestBad.arg[0].toNat + k) = false) ∧ wDestBad.written [0] ∧
    0 < wDestBad.numAcc ∧ wDest.numAcc ≤ 4 := by decide +kernel
theorem witness_SeedIsTheDigestOfWhatWasAbsorbed :
    State.reset.numSlots ≤ 256 ∧ State.reset.seedIsDigest 3 [] ∧ step State.reset = .next State.reset :=
  ⟨by decide, fun c hc => ⟨defaultTable, by
    have : c = ⟨0#32, 0#8⟩ := by simpa [State.context, State.reset, State.resetOn, Platform.test] using hc.symm
    subst this; exact ⟨rfl, rfl⟩⟩, rfl⟩
theorem witness_CommandsTouchOnlyTheContextTheyName :
    namesContext (.aupdate 3) 3 ∧ 0 ≠ 3 ∧
    nextField (fun _ => true) (exec (.aupdate 3) wView) = some true := by decide +kernel
theorem witness_AccumulatorAgreesWithTheOneShotDigest :
    wView.written [0, 1, 2, 3, 4] ∧ wView.arg[4] = 0#32 ∧ wView.context 3 = some ⟨0#32, 0#8⟩ ∧
    wView.tvalid (0#8 : Byte).toNat = true ∧ wView.rangeHolds ∧ wView.viewExists := by decide +kernel
theorem witness_EffectsAreVisibleToTheNextCommand :
    wView.slot (0#8 : Byte).toNat = some defaultTable ∧
    wView.written [0] ∧ 3 < wView.numSlots ∧ wView.tvalid 3 = false ∧ wView.written [0, 1, 2, 3] ∧
    wView.context 3 = some ⟨0#32, 0#8⟩ ∧ wView.rangeHolds ∧ wView.viewExists ∧ wView.isView [0x36#8, 0x37#8, 0x38#8, 0x39#8] :=
  ⟨rfl, by decide +kernel⟩
theorem witness_CommandsReadOnlyTheirListedArgs :
    (1 : Fin 5) ≠ 0 ∧ nextField (fun _ => true) (exec (.tbuild 3) wDest) = some true ∧
    nextField (fun _ => true) (exec (.aupdate 0) wView) = some true ∧
    nextField (fun _ => true) (exec (.adigest 0) wView) = some true := by decide +kernel
theorem witness_UnwrittenArgIsRecordedWithNoOtherEffect :
    0 < (withArgs [0#32, 0#32, 0#32]).numAcc ∧ namesContext (.aupdate 0) 0 ∧
    (3 : Fin 5) ∈ argsRead (.aupdate 0) ∧ (withArgs [0#32, 0#32, 0#32]).argw[3] = false ∧
    ∀ j ∈ argsRead (.aupdate 0), j < 3 → (withArgs [0#32, 0#32, 0#32]).argw[j] = true := by
  decide +kernel
theorem witness_CommandsWriteOnlyWhatTheRulesSay :
    nextField State.code (exec (.digest 0) wView) = some 0#4 ∧
    nextField State.code (exec (.digest 0) wRange) = some 3#4 ∧
    nextField State.code (exec (.areset 0) wView) = some 0#4 := by decide +kernel
theorem witness_TablesAreImmutableUntilReset :
    nextField (fun t => (t.tvalid 0, t.tvalid 3)) (step (wNext wDest (.cmd 0x301#32 []))) = some (true, true) ∧
    (wNext wDest (.cmd 0x301#32 [])).resets = false ∧ wDest.tvalid 3 = false := by decide +kernel
theorem witness_ResetMeetsTheInvariant :
    Platform.test.Ok ∧ mem0.wf = true ∧
    ∀ c ∈ mem0, (State.resetOn Platform.test mem0).admits c.1 = true := by decide +kernel
theorem witness_StepKeepsTheInvariant : State.reset.Inv ∧ step State.reset = .next State.reset := by
  refine ⟨⟨by decide, by decide, fun n t h => ?_, fun a c h => ?_, rfl, by simp [State.reset, State.resetOn],
    by decide, rfl⟩, rfl⟩
  · match n with
    | 0 => cases h; rfl
    | 1 => cases h
    | 2 => cases h
    | 3 => cases h
    | n + 4 => cases h
  · have hm : c ∈ List.replicate 4 (⟨0#32, 0#8⟩ : Context) := List.mem_of_getElem? h
    rw [(List.mem_replicate.1 hm).2]; rfl
theorem witness_AupdateNeverRaisesInvalidTable :
    (∀ c ∈ ({ State.reset with code := 2#4 } : State).accs,
      ({ State.reset with code := 2#4 } : State).tvalid c.tsel.toNat = true) ∧
    nextField State.code (exec (.aupdate 0) { State.reset with code := 2#4 }) = some 2#4 := by
  decide +kernel
theorem witness_StateAfterReset : Platform.test.Ok ∧ 3 < Platform.test.numAcc := by decide
theorem witness_ResetInput :
    (wNext wView (.act .reset)).pending = [.act .reset] ∧ (wNext wView (.act .reset)).inFlight = none ∧
    3 < wView.numAcc ∧ (wBusy wView 0x10#32).inFlight = some 0x10#32 := by decide +kernel
theorem witness_ArgWriteAndRead :
    wView.regBase % 4 = 0 ∧ wView.inFlight = none ∧ wView.argw[(4 : Fin 5)] = true ∧
    wDest.regBase % 4 = 0 ∧ wDest.argw[(1 : Fin 5)] = false ∧
    (wBusy wDest 0x24#32).argw[(4 : Fin 5)] = false := by decide +kernel
theorem witness_CmdResultAndStatusReads :
    wView.regBase % 4 = 0 ∧ wView.inFlight = none ∧ wView.resw = false ∧
    (wView.setResult 5#32).resw = true ∧ (wView.setResult 5#32).inFlight = none := by decide +kernel
theorem witness_ResultAndStatusWritesAreIgnored : State.reset.regBase % 4 = 0 := by decide
theorem witness_OtherWindowAccessesAreRefused :
    2 ≠ 4 ∧ (State.reset.regBase + 1) % 4 ≠ 0 ∧ State.reset.regBase - 4 < State.reset.regBase ∧
    ((State.reset.regBase + 2) - State.reset.regBase) % 4 ≠ 0 ∧
    State.reset.regBase + 0x20 ≤ State.reset.regBase + 0x20 := by decide
theorem witness_ArgAndCmdWritesWhileBusyAreRefused :
    (wBusy wView 0x10#32).inFlight = some 0x10#32 ∧ (wBusy wView 0x10#32).regBase % 4 = 0 ∧ 5 ≤ 5 := by
  decide +kernel
theorem witness_ReadsWhileBusy :
    (wBusy (wView.setResult 5#32) 0x10#32).inFlight = some 0x10#32 ∧
    (wBusy (wView.setResult 5#32) 0x10#32).regBase % 4 = 0 ∧
    (wBusy (wView.setResult 5#32) 0x10#32).resw = true ∧
    (wBusy (wView.setResult 5#32) 0x10#32).argw[(4 : Fin 5)] = true ∧
    (wBusy wDest 0x24#32).inFlight = some 0x24#32 ∧ (wBusy wDest 0x24#32).regBase % 4 = 0 ∧
    (wBusy wDest 0x24#32).argw[(4 : Fin 5)] = false := by decide +kernel
theorem witness_MemoryWritesWhileDigestIsInFlight :
    (wBusy wView 0x10#32).inFlight = some 0x10#32 ∧ decode 0x10#32 = .ok (.digest 0) ∧
    (wBusy wView 0x10#32).written [0, 1, 2, 3, 4] ∧ (wBusy wView 0x10#32).tvalid 0 = true ∧
    (wBusy wView 0x10#32).rangeHolds ∧ (wBusy wView 0x10#32).viewExists ∧
    (wBusy wView 0x10#32).mem.wf = true ∧ (wBusy wView 0x10#32).admits 0x1008 = true ∧
    (∃ j < (wBusy wView 0x10#32).viewLen, 0x1008 = (wBusy wView 0x10#32).viewAddr j) ∧
    (wBusy wView 0x10#32).admits 0x1009 = true ∧
    (∀ j < (wBusy wView 0x10#32).viewLen, 0x1009 ≠ (wBusy wView 0x10#32).viewAddr j) := by
  decide +kernel
theorem witness_MemoryWritesWhileAupdateIsInFlight :
    (wBusy wView 0x22#32).inFlight = some 0x22#32 ∧ decode 0x22#32 = .ok (.aupdate 0) ∧
    (wBusy wView 0x22#32).written [0, 1, 2, 3] ∧
    (wBusy wView 0x22#32).context 0 = some ⟨0#32, 0#8⟩ ∧
    (wBusy wView 0x22#32).tvalid (0#8 : Byte).toNat = true ∧
    (wBusy wView 0x22#32).rangeHolds ∧ (wBusy wView 0x22#32).viewExists ∧
    (wBusy wView 0x22#32).mem.wf = true ∧ (wBusy wView 0x22#32).admits 0x1005 = true ∧
    (∃ j < (wBusy wView 0x22#32).viewLen, 0x1005 = (wBusy wView 0x22#32).viewAddr j) ∧
    (wBusy wView 0x22#32).admits 0x1004 = true ∧
    (∀ j < (wBusy wView 0x22#32).viewLen, 0x1004 ≠ (wBusy wView 0x22#32).viewAddr j) := by
  decide +kernel
theorem witness_MemoryWhileAdigestbIsInFlight :
    (wBusy wDest 0x24#32).inFlight = some 0x24#32 ∧ decode 0x24#32 = .ok (.adigestb 0) ∧
    (wBusy wDest 0x24#32).written [0] ∧ (wBusy wDest 0x24#32).context 0 = some ⟨0#32, 0#8⟩ ∧
    (∀ j < 4, (wBusy wDest 0x24#32).admits ((wBusy wDest 0x24#32).arg[0].toNat + j) = true) ∧
    (wBusy wDest 0x24#32).admits 0xFFFFFFFF = true ∧
    0xFFFFFFFF = (wBusy wDest 0x24#32).arg[0].toNat + 3 ∧
    (wBusy wDest 0x24#32).admits 0xFFFFFFFB = true ∧
    0xFFFFFFFB < (wBusy wDest 0x24#32).arg[0].toNat ∧ (wBusy wDest 0x24#32).mem.wf = true := by
  decide +kernel
theorem witness_HostDataMemoryAccess :
    wView.inFlight = none ∧ wView.mem.wf = true ∧ wView.admits 0xFFFF = true ∧
    wView.admits 0x10000 = false ∧ wView.admits 0xFFFFFFFF = true ∧ wView.admits 0x100000000 = false := by
  decide +kernel

/-- A command that ends with an error code fails. -/
theorem fails_of_code {s : State} {i : Instr} {k : BitVec 4}
    (h : nextField State.code (exec i s) = some k) (hk : k ≠ codeOk) : s.fails i := by
  intro t ht hc
  rw [ht] at h
  cases h
  exact hk hc.1

theorem witness_MemoryWritesWhileNoByteIsInUse :
    (wBusy wView 0x21#32).inFlight = some 0x21#32 ∧
    (∀ i, decode 0x21#32 = .ok i → usesMemory i = false ∨ (wBusy wView 0x21#32).fails i) ∧
    (∀ i, decode 0x25#32 = .ok i → usesMemory i = false ∨ (wBusy wView 0x25#32).fails i) ∧
    (∀ i, decode 0x10#32 = .ok i → usesMemory i = false ∨ (wBusy wRange 0x10#32).fails i) ∧
    (wBusy wRange 0x10#32).mem.wf = true ∧ (wBusy wRange 0x10#32).admits 0x1005 = true := by
  refine ⟨rfl, fun i h => .inl ?_, fun i h => ?_, fun i h => .inr ?_, by decide +kernel, by decide +kernel⟩
  · cases h.symm.trans (by decide : decode 0x21#32 = .ok (.areset 0)); rfl
  · cases h.symm.trans (by decide : decode 0x25#32 = .error .reservedOp)
  · cases h.symm.trans (by decide : decode 0x10#32 = .ok (.digest 0))
    exact fails_of_code (k := 3#4) (by decide +kernel) (by decide)
theorem witness_MemoryReadsWhileNothingIsStored :
    (wBusy wView 0x10#32).inFlight = some 0x10#32 ∧ (wBusy wView 0x10#32).admits 0x1005 = true ∧
    (∀ k, decode 0x10#32 = .ok (.adigestb k) → (wBusy wView 0x10#32).fails (.adigestb k)) ∧
    (∀ k, decode 0x24#32 = .ok (.adigestb k) → (wBusy wDestBad 0x24#32).fails (.adigestb k)) := by
  refine ⟨rfl, by decide +kernel, fun k h => ?_, fun k h => ?_⟩
  · cases h.symm.trans (by decide : decode 0x10#32 = .ok (.digest 0))
  · cases h.symm.trans (by decide : decode 0x24#32 = .ok (.adigestb 0))
    exact fails_of_code (k := 4#4) (by decide +kernel) (by decide)
theorem witness_RunEndsAtTheLastWindowAccess :
    (wNext wView (.act .reset)).inFlight = none ∧ (wNext wView (.act .reset)).ended ∧
    ¬ (wNext wView (.cmd 0x21#32 [])).ended ∧ ¬ (wBusy wView 0x21#32).ended ∧
    nextField (fun _ => true) (step (wNext wView (.cmd 0x21#32 []))) = some true ∧
    (match step (wNext wView (.act (.load 0 1))), step (wNext wView (.cmd 0x21#32 [.peek 0x10000])) with
      | .refused _, .fault _ => true
      | _, _ => false) = true := by decide +kernel
theorem witness_ActionsAfterTheLastWindowAccessDoNotMoveTheEnd :
    (wNext wDest (.cmd 0x301#32 [])).inFlight = none ∧
    (∀ e ∈ [HostEvent.act .reset, .act (.place 0x1000 0#8)], e.toWindow = false) := by decide +kernel
-- R189: the run ends when TBUILD 3 has completed, before the reset that comes after it
theorem test_run_end_before_reset :
    (runEnd 5 { wDest with pending := [.cmd 0x301#32 [], .act .reset] }).map
      (fun t => (t.tvalid 3, t.pending)) = some (true, [.act .reset]) := by decide +kernel
-- R52: the byte an ADIGESTB stored is what the host reads once BUSY = 0 (section 5, 18)
theorem test_host_reads_stored_byte :
    nextField State.hostReads
      (match hostEvent (ctx (withArgs [0x2001#32]) 0 0#8 0xCBF43926#32) (.cmd 0x24#32 []) with
        | .next t => hostAct t (.peek 0x2002)
        | r => r) = some [0x39#32] := by decide +kernel

end Sys2Proof.Tests
end

section
/-! PROOFS of the statements from 00_scope.md: the invariant at reset and over every step (O34, O35),
what a step is (O6), and the table-driven digest as bitwise division (O15). -/

namespace Sys2Proof.Machine

/-! ## What of the invariant holds also while a command is in flight -/

/-- `State.Inv` without its last field, BUSY = 0: what also holds between the CMD write and the end of
the command (R178), where a step's intermediate states lie (`State.inv_iff`). -/
structure State.InvInFlight (s : State) : Prop where
  slots : 2 ≤ s.numSlots ∧ s.numSlots ≤ 256
  contexts : 1 ≤ s.numAcc ∧ s.numAcc ≤ 256
  tables : ∀ n t, s.slot n = some t → t.entries = build t.poly
  tsels : ∀ a c, s.context a = some c → s.tvalid c.tsel.toNat = true
  memory : s.mem.wf = true
  mapped : ∀ c ∈ s.mem, s.admits c.1 = true
  code : s.code.toNat ≤ 4

theorem State.inv_iff (s : State) : s.Inv ↔ s.InvInFlight ∧ s.inFlight = none := by
  constructor
  · rintro ⟨slots, contexts, tables, tsels, memory, mapped, code, idle⟩
    exact ⟨⟨slots, contexts, tables, tsels, memory, mapped, code⟩, idle⟩
  · rintro ⟨⟨slots, contexts, tables, tsels, memory, mapped, code⟩, idle⟩
    exact ⟨slots, contexts, tables, tsels, memory, mapped, code, idle⟩

namespace State.InvInFlight

variable {s t : State}

/-- The invariant looks at the slots, the contexts, the data memory, what exists of it, and CODE. -/
theorem of_same_stores (h : s.InvInFlight) (hslots : t.custom = s.custom) (haccs : t.accs = s.accs)
    (hmem : t.mem = s.mem) (hregions : t.regions = s.regions) (hcode : t.code.toNat ≤ 4) :
    t.InvInFlight := by
  have hslot : ∀ n, t.slot n = s.slot n := fun n => by unfold slot; rw [hslots]
  have hcontext : ∀ a, t.context a = s.context a := fun a => by unfold context; rw [haccs]
  refine ⟨?_, ?_, ?_, ?_, ?_, ?_, hcode⟩
  · unfold numSlots; rw [hslots]; exact h.slots
  · unfold numAcc; rw [haccs]; exact h.contexts
  · simpa only [hslot] using h.tables
  · simpa only [hcontext, tvalid, hslot] using h.tsels
  · rw [hmem]; exact h.memory
  · unfold admits; rw [hmem, hregions]; exact h.mapped

/-- A table built into a custom slot is build of its polynomial, and valid slots stay valid (R82). -/
theorem setSlot (h : s.InvInFlight) {n : Nat} (p : Word) (h0 : n ≠ 0) (hn : n < s.numSlots) :
    (s.setSlot n (builtTable p)).InvInFlight := by
  refine ⟨by simpa using h.slots, h.contexts, fun m t hm => ?_, fun a c hc => ?_,
    h.memory, h.mapped, h.code⟩
  · by_cases hmn : m = n
    · rw [hmn, s.slot_setSlot_same _ h0 hn] at hm
      cases hm; rfl
    · rw [s.slot_setSlot_other _ hmn] at hm
      exact h.tables m t hm
  · by_cases hcn : c.tsel.toNat = n
    · rw [hcn, tvalid, s.slot_setSlot_same _ h0 hn]; rfl
    · rw [tvalid, s.slot_setSlot_other _ hcn]
      exact h.tsels a c hc

/-- Writing a context whose TSEL names a valid slot (R28). -/
theorem setContext (h : s.InvInFlight) (a : Nat) {c : Context} (hc : s.tvalid c.tsel.toNat = true) :
    (s.setContext a c).InvInFlight := by
  refine ⟨h.slots, by simpa using h.contexts, h.tables, fun b d hd => ?_,
    h.memory, h.mapped, h.code⟩
  by_cases hb : b = a
  · subst hb
    have hlt : b < s.numAcc := by simpa using context_lt _ hd
    rw [s.context_setContext_same c hlt] at hd
    cases hd; exact hc
  · rw [s.context_setContext_other c hb] at hd
    exact h.tsels b d hd

/-- Storing bytes at addresses that exist (R40). -/
theorem storeBytes (h : s.InvInFlight) {a : Nat} {bs : List Byte}
    (hbs : ∀ k < bs.length, s.admits (a + k) = true) : (s.storeBytes a bs).InvInFlight := by
  refine ⟨h.slots, h.contexts, h.tables, h.tsels, Memory.wf_writeBytes h.memory a bs,
    fun c hc => ?_, h.code⟩
  rcases Memory.writeBytes_subset s.mem a bs c hc with ⟨hlo, hhi⟩ | hold
  · have := hbs (c.1 - a) (by omega)
    rwa [Nat.add_sub_cancel' hlo] at this
  · exact h.mapped c hold

/-- A state whose stores are those of R171: no custom table, and every context fresh on slot 0. -/
theorem of_fresh {n m : Nat} (hn : 1 ≤ n ∧ n ≤ 255) (hm : 1 ≤ m ∧ m ≤ 256)
    (hslots : s.custom = List.replicate n none) (haccs : s.accs = List.replicate m ⟨0#32, 0#8⟩)
    (hmem : s.mem.wf = true) (hmapped : ∀ c ∈ s.mem, s.admits c.1 = true) (hcode : s.code = 0#4) :
    s.InvInFlight := by
  refine ⟨?_, ?_, fun k t hk => ?_, fun a c hc => ?_, hmem, hmapped, by rw [hcode]; decide⟩
  · simp only [numSlots, hslots, List.length_replicate]; omega
  · simpa [numAcc, haccs] using hm
  · by_cases hk0 : k = 0
    · subst hk0; cases hk; rfl
    · rw [s.slot_pos hk0, hslots, List.getElem?_replicate] at hk
      split at hk <;> cases hk
  · have hfresh : c = ⟨0#32, 0#8⟩ := List.eq_of_mem_replicate (haccs ▸ List.mem_of_getElem? hc)
    rw [hfresh]; rfl

/-- The reset input keeps the parameters and the data memory (R171, R173). -/
theorem applyReset (h : s.InvInFlight) : s.applyReset.InvInFlight := by
  have hslots : 2 ≤ s.custom.length + 1 ∧ s.custom.length + 1 ≤ 256 := h.slots
  exact of_fresh (by omega) h.contexts rfl rfl h.memory h.mapped rfl

end State.InvInFlight

/-- What a command finds when it starts meets the invariant but for BUSY (R178). -/
theorem StartsFrom.invInFlight {s u : State} (hf : StartsFrom s u) (h : s.InvInFlight) :
    u.InvInFlight where
  slots := by rw [hf.numSlots]; exact h.slots
  contexts := by rw [hf.numAcc]; exact h.contexts
  tables := by simpa only [hf.slot] using h.tables
  tsels := by simpa only [hf.context, State.tvalid, hf.slot] using h.tsels
  memory := hf.mem (fun m => m.wf = true) h.memory fun _ x b hm _ => Memory.wf_write hm x b
  mapped := by
    simp only [hf.admits]
    refine hf.mem (fun m => ∀ c ∈ m, s.admits c.1 = true) h.mapped fun m x b hm hx c hc => ?_
    rcases Memory.write_subset c hc with hcx | hold
    · rw [hcx]; exact hx
    · exact hm c hold
  code := by rw [hf.code]; exact h.code

/-- The write of a command whose checks pass keeps the invariant. -/
theorem Writes.invInFlight {i : Instr} {s u : State} (hw : Writes i s u) (h : s.InvInFlight) :
    u.InvInFlight := by
  cases hw with
  | tbuild h0 hn _ => exact h.setSlot _ h0 hn
  | tread _ _ => exact h.of_same_stores rfl rfl rfl rfl h.code
  | digest _ _ => exact h.of_same_stores rfl rfl rfl rfl h.code
  | @abind a n _ c t hc ht =>
    have hn : n < 256 := lt_of_lt_of_le (s.slot_lt ht) h.slots.2
    have htsel : (BitVec.ofNat 8 n).toNat = n := Nat.mod_eq_of_lt hn
    exact h.setContext a (by rw [htsel]; exact (s.tvalid_iff n).2 ⟨t, ht⟩)
  | @areset _ _ c hc => exact h.setContext _ (h.tsels _ c hc)
  | @aupdate _ _ c _ _ hc _ _ => exact h.setContext _ (h.tsels _ c hc)
  | adigest _ => exact h.of_same_stores rfl rfl rfl rfl h.code
  | adigestb _ hm => exact h.storeBytes hm

/-- Every command keeps the invariant, however it ends. -/
theorem exec_invInFlight {i : Instr} {s t : State} (h : s.InvInFlight) (he : exec i s = .next t) :
    t.InvInFlight := by
  rcases exec_ends i s with ⟨u, hw, hr⟩ | ⟨e, hr⟩ | ⟨k, -, -, hr⟩ <;> cases hr.symm.trans he
  · exact (hw.invInFlight h).of_same_stores rfl rfl rfl rfl (Nat.zero_le 4)
  · exact h.of_same_stores rfl rfl rfl rfl e.bits_le
  · exact h.of_same_stores rfl rfl rfl rfl h.code

/-- A host action that runs no command keeps the invariant. -/
theorem Acts.invInFlight {s t : State} {a : HostAction} (ha : Acts s a t) (h : s.InvInFlight)
    (hn : ∀ addr size v, a = .store addr size v → s.busy = false → s.regAt addr size ≠ some .cmd) :
    t.InvInFlight := by
  cases ha with
  | record _ _ ht => rw [ht]; exact h.of_same_stores rfl rfl rfl rfl h.code
  | arg _ _ => exact h.of_same_stores rfl rfl rfl rfl h.code
  | cmd hb hr _ => exact absurd hr (hn _ _ _ rfl hb)
  | place hx _ =>
    refine h.storeBytes fun k hk => ?_
    obtain rfl : k = 0 := Nat.lt_one_iff.1 hk
    exact hx
  | reset _ => exact h.applyReset

/-- Whatever a step does, it keeps the invariant. -/
theorem Steps.invInFlight {s t : State} (hst : Steps s t) (h : s.InvInFlight) : t.InvInFlight := by
  have htaken : ∀ rest, State.InvInFlight { s with pending := rest } := fun _ =>
    h.of_same_stores rfl rfl rfl rfl h.code
  cases hst with
  | command _ _ hf he => exact exec_invInFlight (hf.invInFlight h) he
  | illegal _ _ hf => exact (hf.invInFlight h).of_same_stores rfl rfl rfl rfl (Code.bits_le _)
  | idle _ _ => exact h
  | act _ _ _ ha _ hn => exact ha.invInFlight (htaken _) hn
  | reset _ _ _ => exact (htaken _).applyReset

/-- The state after reset on a platform within R8, with bytes placed only where memory exists. -/
theorem resetOn_inv {p : Platform} {m : Memory} (hp : p.Ok) (hwf : m.wf = true)
    (hm : ∀ c ∈ m, (State.resetOn p m).admits c.1 = true) : (State.resetOn p m).Inv := by
  obtain ⟨hslots, hslots', hacc, hacc'⟩ := hp
  refine (State.inv_iff _).2 ⟨?_, rfl⟩
  exact .of_fresh (n := p.numSlots - 1) (by omega) ⟨hacc, hacc'⟩ rfl rfl hwf hm rfl

/-! ## The invariant and the step -/

/-- Settles O35, by the cases of what a step can do: each keeps what of the invariant holds with a
command in flight, and a step that starts with BUSY = 0 ends with BUSY = 0. -/
theorem stepKeepsTheInvariant : Obligations.StepKeepsTheInvariant := by
  intro s t hinv hstep
  obtain ⟨h, hidle⟩ := s.inv_iff.1 hinv
  exact t.inv_iff.2 ⟨(step_steps hstep).invInFlight h, step_idle hidle hstep⟩

/-- Settles O34, from the state after reset on any platform within R8; `State.reset` is that of the
test platform. -/
theorem resetMeetsTheInvariant : Obligations.ResetMeetsTheInvariant :=
  ⟨fun _ _ => resetOn_inv, resetOn_inv (by decide) rfl (by simp)⟩

/-! ## What a step is -/

/-- A CMD write with BUSY = 0 and no host action meanwhile is its word, run with BUSY set. -/
theorem hostEvent_cmd_nil {s : State} (hidle : s.inFlight = none) (w : Word) :
    hostEvent s (.cmd w []) = runWord w (s.start w) := by
  simp [hostEvent, hostActs, State.busy, hidle]

/-- Settles O6: the step takes the first entry off the list (`step_cons`); a CMD write runs its word,
which decodes or raises ILLEGAL_COMMAND. -/
theorem stepRunsTheDecodedCommand : Obligations.StepRunsTheDecodedCommand := by
  refine ⟨fun s w rest hp hidle => ?_, fun s a rest hp => step_cons hp⟩
  have hstep : step s = runWord w ((s.withPending rest).start w) := by
    rw [step_cons hp]; exact hostEvent_cmd_nil (s := s.withPending rest) hidle w
  constructor
  · intro i hd
    rw [hstep, runWord_ok hd]; rfl
  · intro e hd
    rw [hstep, runWord_error hd]
    simp only [State.raise, State.endWith, State.start, State.withPending, Code.bits, hidle]

/-! ## The table-driven digest and the division of the bits -/

/-- f_p in the form of R87. -/
theorem divStep_eq (p r : Word) :
    divStep p r = (r >>> 1) ^^^ (if r.getLsbD 0 then p else 0#32) := by
  unfold divStep
  split <;> simp

/-- One step of build is linear over XOR. -/
theorem divStep_xor (p a b : Word) : divStep p (a ^^^ b) = divStep p a ^^^ divStep p b := by
  have hbit : ∀ x y : Bool, (if (x ^^ y) = true then p else 0#32) =
      (if x = true then p else 0#32) ^^^ (if y = true then p else 0#32) := by
    intro x y; cases x <;> cases y <;> simp
  simp only [divStep_eq, BitVec.getLsbD_xor, BitVec.ushiftRight_xor_distrib, hbit]
  ac_rfl

/-- Any number of steps of build is linear over XOR. -/
theorem divSteps_xor (p : Word) (n : Nat) (a b : Word) :
    divSteps p n (a ^^^ b) = divSteps p n a ^^^ divSteps p n b := by
  induction n generalizing a b with
  | zero => rfl
  | succ n ih => rw [divSteps, divStep_xor, ih]; rfl

/-- While the bits shifted out are 0 the steps only shift. -/
theorem divSteps_eq_ushiftRight (p : Word) (n : Nat) (r : Word)
    (hlow : ∀ k < n, r.getLsbD k = false) :
    divSteps p n r = r >>> n := by
  induction n generalizing r with
  | zero => simp [divSteps]
  | succ n ih =>
    have hstep : divStep p r = r >>> 1 := by rw [divStep, hlow 0 (by omega)]; rfl
    have hlow' : ∀ k < n, (r >>> 1).getLsbD k = false := fun k hk => by
      rw [BitVec.getLsbD_ushiftRight]; exact hlow _ (by omega)
    rw [divSteps, hstep, ih _ hlow', ← BitVec.shiftRight_add, Nat.add_comm]

/-- The bit that enters the register may as well be there already, with the later ones above it. -/
theorem divStep_xor_eq_bitStep (p state v : Word) :
    divStep p (state ^^^ v) = bitStep p state (v.getLsbD 0) ^^^ (v >>> 1) := by
  simp only [divStep, bitStep, BitVec.getLsbD_xor, BitVec.ushiftRight_xor_distrib]
  split <;> ac_rfl

/-- Taking in the low `n` bits of `v` one by one is `n` steps on the register with `v` already in it. -/
theorem foldl_bitStep (p : Word) (n : Nat) (state v : Word) :
    ((List.range n).map v.getLsbD).foldl (bitStep p) state ^^^ (v >>> n) =
      divSteps p n (state ^^^ v) := by
  induction n generalizing state v with
  | zero => simp [divSteps]
  | succ n ih =>
    have hbits : v.getLsbD ∘ Nat.succ = (v >>> 1).getLsbD := by
      funext k; simp [BitVec.getLsbD_ushiftRight, Nat.add_comm]
    rw [divSteps, divStep_xor_eq_bitStep, ← ih, List.range_succ_eq_map, List.map_cons, List.map_map,
      hbits, List.foldl_cons, Nat.add_comm n 1, BitVec.shiftRight_add]

/-- The bits of a byte are those of the byte in a word. -/
theorem bitsOf_eq (b : Byte) : bitsOf b = (List.range 8).map (b.setWidth 32).getLsbD := by
  refine List.map_congr_left fun k hk => ?_
  have hk : k < 32 := by have := List.mem_range.1 hk; omega
  simp [hk]

/-- A word is its upper 24 bits in place, XOR its low byte. -/
theorem word_eq_high_xor_low (w : Word) :
    w = ((w >>> 8) <<< 8) ^^^ (w.extractLsb' 0 8).setWidth 32 := by
  ext k hk
  rw [← BitVec.getLsbD_eq_getElem]
  by_cases h : k < 8
  · simp [h]
  · simp [h, Nat.add_sub_cancel' (not_lt.1 h)]

/-- Eight steps on a word whose low byte is 0 shift it out. -/
theorem divSteps_high (p w : Word) : divSteps p 8 ((w >>> 8) <<< 8) = w >>> 8 := by
  rw [divSteps_eq_ushiftRight p 8 _ fun k hk => by simp [hk]]
  ext k hk
  simpa using (BitVec.lt_of_getLsbD : w.getLsbD (8 + k) = true → 8 + k < 32)

/-- One byte of the loop (R103) is its eight bits through the division: the table answers for the low
byte, and the upper bytes only shift. -/
theorem crcStep_builtTable (p state : Word) (b : Byte) :
    crcStep (builtTable p) state b = (bitsOf b).foldl (bitStep p) state := by
  have hsplit : state ^^^ b.setWidth 32 =
      ((state >>> 8) <<< 8) ^^^ (b ^^^ state.extractLsb' 0 8).setWidth 32 := by
    conv_lhs => rw [word_eq_high_xor_low state]
    rw [BitVec.setWidth_xor, BitVec.xor_assoc, BitVec.xor_comm (b.setWidth 32)]
  have hbyte : (b.setWidth 32 : Word) >>> 8 = 0#32 := by
    ext k hk; simp
  calc crcStep (builtTable p) state b
      = (state >>> 8) ^^^ divSteps p 8 ((b ^^^ state.extractLsb' 0 8).setWidth 32) := by
        rw [crcStep, builtTable_at]
    _ = divSteps p 8 (state ^^^ b.setWidth 32) := by rw [hsplit, divSteps_xor, divSteps_high]
    _ = (bitsOf b).foldl (bitStep p) state := by
        rw [← foldl_bitStep, ← bitsOf_eq, hbyte, BitVec.xor_zero]

/-- The loop of R100 is the division of all the bits in sequence. -/
theorem crcLoop_builtTable (p : Word) (bytes : List Byte) (state : Word) :
    crcLoop (builtTable p) state bytes = (bytes.flatMap bitsOf).foldl (bitStep p) state := by
  induction bytes generalizing state with
  | nil => rfl
  | cons b bytes ih =>
    rw [crcLoop, ih, crcStep_builtTable, List.flatMap_cons, List.foldl_append]

/-- Step 1 of R100 never changes the result (R111). -/
theorem digestOf_eq (t : Table) (bytes : List Byte) (seed : Word) :
    digestOf t bytes seed = ~~~ (crcLoop t (~~~ seed) bytes) := by
  cases bytes with
  | nil => simp [digestOf, crcLoop]
  | cons b bytes => rfl

/-- Settles O15: eight steps of build are linear, so looking up the low byte and shifting the rest is
the division of the byte's eight bits (`crcStep_builtTable`); then by induction on the bytes. -/
theorem tableDigestIsBitwiseDivision : Obligations.TableDigestIsBitwiseDivision := by
  intro p bytes seed
  rw [digestOf_eq, crcLoop_builtTable, bitwiseDigest]

end Sys2Proof.Machine
end

section
/-! PROOFS of the statements from 10_state.md: what commands and steps leave unchanged (O32, O33, O36)
and the host's accesses to the register window (O7, O39 to O42). -/

namespace Sys2Proof.Machine

/-! ## What a command leaves unchanged -/

namespace Writes

variable {i : Instr} {s u : State}

/-- No command writes ARG, the parameters, the records of the run or STATUS before it ends (R30). -/
theorem frame (hw : Writes i s u) :
    u = { s with
      custom := u.custom, accs := u.accs, result := u.result, resw := u.resw, mem := u.mem } := by
  cases hw <;> rfl

theorem numSlots (hw : Writes i s u) : u.numSlots = s.numSlots := by
  cases hw with
  | tbuild h0 hn he => exact s.numSlots_setSlot _ _
  | _ => rfl

theorem numAcc (hw : Writes i s u) : u.numAcc = s.numAcc := by
  cases hw with
  | abind hc ht => exact s.numAcc_setContext _ _
  | areset hc => exact s.numAcc_setContext _ _
  | aupdate hc ht hv => exact s.numAcc_setContext _ _
  | _ => rfl

/-- Only DIGEST, TREAD and ADIGEST write RESULT (R32). -/
theorem result (hw : Writes i s u) (hd : ∀ n, i ≠ .digest n) (ht : ∀ n, i ≠ .tread n)
    (ha : ∀ a, i ≠ .adigest a) : u.result = s.result ∧ u.resw = s.resw := by
  cases hw with
  | digest _ _ => exact absurd rfl (hd _)
  | tread _ _ => exact absurd rfl (ht _)
  | adigest _ => exact absurd rfl (ha _)
  | _ => exact ⟨rfl, rfl⟩

/-- Only ADIGESTB writes the data memory (R41). -/
theorem mem (hw : Writes i s u) (hb : ∀ a, i ≠ .adigestb a) : u.mem = s.mem := by
  cases hw with
  | adigestb _ _ => exact absurd rfl (hb _)
  | _ => rfl

/-- Only TBUILD writes a slot (R22). -/
theorem slot (hw : Writes i s u) (hb : ∀ n, i ≠ .tbuild n) (n : Nat) : u.slot n = s.slot n := by
  cases hw with
  | tbuild _ _ _ => exact absurd rfl (hb _)
  | _ => rfl

end Writes

/-- A command's end: its write completed, or nothing changed but CODE, BUSY and the faults recorded
(R141, R174). -/
theorem exec_writes_or_keeps {i : Instr} {s t : State} (h : exec i s = .next t) :
    (∃ u, Writes i s u ∧ t = u.complete) ∨
    t = { s with code := t.code, faults := t.faults, inFlight := t.inFlight } := by
  rcases exec_ends i s with ⟨u, hw, hr⟩ | ⟨e, hr⟩ | ⟨k, -, -, hr⟩ <;> cases hr.symm.trans h
  · exact .inl ⟨u, hw, rfl⟩
  · exact .inr rfl
  · exact .inr rfl

/-- Settles O32: a command that ends OK has made its one write (`Writes`), whose frame says what it
leaves; any other end keeps all the statement speaks of. -/
theorem commandsWriteOnlyWhatTheRulesSay : Obligations.CommandsWriteOnlyWhatTheRulesSay := by
  intro i s t h
  rcases exec_writes_or_keeps h with ⟨u, hw, rfl⟩ | hkeep
  · refine ⟨?_, ?_, ?_, ?_, hw.numSlots, hw.numAcc, ?_, ?_, ?_, hw.result, fun hc => absurd rfl hc,
      fun hb x => congrArg (·.read x) (hw.mem hb), hw.slot⟩ <;> rw [hw.frame] <;> rfl
  · rw [hkeep]
    exact ⟨rfl, rfl, rfl, rfl, rfl, rfl, rfl, rfl, rfl, fun _ _ _ => ⟨rfl, rfl⟩,
      fun _ => ⟨rfl, rfl⟩, fun _ _ => rfl, fun _ _ => rfl⟩

/-! ## The slots over a step -/

/-- The slots of `t` are those of `s`, but for the table built into the empty slot `n` (R82). -/
def BuiltInto (n : Nat) (s t : State) : Prop :=
  s.slot n = none ∧ (∃ p, t.slot n = some (builtTable p)) ∧ ∀ m, m ≠ n → t.slot m = s.slot m

/-- The slots after a command: unchanged, or one empty slot filled by TBUILD (R22, R82). -/
theorem exec_slots {i : Instr} {s t : State} (h : exec i s = .next t) :
    (∀ n, t.slot n = s.slot n) ∨ ∃ n, i = .tbuild n ∧ BuiltInto n s t := by
  rcases exec_writes_or_keeps h with ⟨u, hw, rfl⟩ | hkeep
  · cases hw with
    | @tbuild n _ h0 hn he =>
      exact .inr ⟨n, rfl, he, ⟨_, s.slot_setSlot_same _ h0 hn⟩, fun _ => s.slot_setSlot_other _⟩
    | _ => exact .inl fun _ => rfl
  · exact .inl fun n => by rw [hkeep]; rfl

/-- A host action that is no CMD write and no reset input leaves every slot. -/
theorem Acts.slot {s t : State} {a : HostAction} (ha : Acts s a t) (hreset : a ≠ .reset)
    (hcmd : ∀ addr size v, a = .store addr size v → s.busy = false → s.regAt addr size ≠ some .cmd)
    (n : Nat) : t.slot n = s.slot n := by
  cases ha with
  | record _ _ h => rw [h]; rfl
  | arg _ _ => rfl
  | cmd hb hr _ => exact absurd hr (hcmd _ _ _ rfl hb)
  | place _ _ => rfl
  | reset _ => exact absurd rfl hreset

/-- The slots after a step other than the reset input: unchanged, or one empty slot filled by the
TBUILD the step ran (R22). -/
theorem Steps.slots {s t : State} (hst : Steps s t) (hreset : s.resets = false) :
    (∀ n, t.slot n = s.slot n) ∨ ∃ n u, s.started = some (.tbuild n, u) ∧ BuiltInto n s t := by
  cases hst with
  | @command u _ _ hs _ hf he =>
    rcases exec_slots he with hkeep | ⟨n, rfl, hb⟩
    · exact .inl fun n => (hkeep n).trans (hf.slot n)
    · exact .inr ⟨n, u, hs, by simpa only [BuiltInto, hf.slot] using hb⟩
  | illegal _ _ hf => exact .inl hf.slot
  | idle _ _ => exact .inl fun _ => rfl
  | act _ _ _ ha hc hn => exact .inl (ha.slot hc hn)
  | reset _ _ hr => cases hreset.symm.trans hr

/-- Settles O33, by what a step can do to the slots (`Steps.slots`): TBUILD fills a slot that was
empty, so a table that is there stays. -/
theorem tablesAreImmutableUntilReset : Obligations.TablesAreImmutableUntilReset := by
  intro s t hstep hreset
  rcases (step_steps hstep).slots hreset with hkeep | ⟨n, u, hs, hempty, ⟨p, hbuilt⟩, hkeep⟩
  · refine ⟨fun m tb hm => (hkeep m).trans hm, fun m tb hm hm' => ?_⟩
    cases hm'.symm.trans ((hkeep m).trans hm)
  · refine ⟨fun m tb hm => ?_, fun m tb hm hm' => ?_⟩
    · have hmn : m ≠ n := by rintro rfl; cases hempty.symm.trans hm
      exact (hkeep m hmn).trans hm
    · have hmn : m = n := by
        by_contra hmn
        cases hm'.symm.trans ((hkeep m hmn).trans hm)
      subst hmn
      cases hbuilt.symm.trans hm'
      exact ⟨⟨u, hs⟩, rfl⟩

/-! ## The table check of AUPDATE -/

/-- Of the errors only INVALID_TABLE has CODE 2 (R140). -/
theorem Code.eq_invalidTable {e : Code} (h : e.bits = 2#4) : e = .invalidTable := by
  revert h; cases e <;> decide

/-- The checks of a view raise INVALID_RANGE or BUS_ERROR only (R107). -/
theorem State.view_ne_invalidTable (s : State) : s.view ≠ .error (.raise .invalidTable) := by
  rcases s.view_cases with ⟨sp, hv, -⟩ | ⟨-, hv⟩ | ⟨-, -, hv⟩ <;> rw [hv] <;> simp

/-- INVALID_TABLE comes only from a context whose TSEL names no valid slot (R122). -/
theorem tsel_invalid_of_aupdateChecks {s : State} {a : Nat}
    (h : aupdateChecks a s = .error (.raise .invalidTable)) :
    ∃ c, s.context a = some c ∧ s.tvalid c.tsel.toNat = false := by
  unfold aupdateChecks at h
  rcases s.contextFor_cases a with ⟨c, hc, hctx⟩ | ⟨-, hctx⟩ <;>
    simp only [hctx, bind_ok, bind_error] at h
  · rcases s.checkArgs_cases (.aupdate a) with ⟨hargs, -⟩ | ⟨k, -, -, -, hargs⟩ <;>
      simp only [hargs, bind_ok, bind_error] at h
    · rcases s.tableFor_cases c.tsel.toNat with ⟨t, -, htab⟩ | ⟨hnone, -⟩
      · cases hv : s.view with
        | ok sp => simp [htab, hv] at h
        | error x =>
          simp only [htab, hv, bind_ok, bind_error] at h
          exact absurd (hv.trans (by cases h; rfl)) s.view_ne_invalidTable
      · exact ⟨c, hc, by rw [State.tvalid, hnone]; rfl⟩
    · cases h
  · cases h

/-- Settles O36: of the errors only INVALID_TABLE has CODE 2, and a valid TSEL rules it out
(`tsel_invalid_of_aupdateChecks`); CODE 2 after a recorded fault is the CODE from before. -/
theorem aupdateNeverRaisesInvalidTable : Obligations.AupdateNeverRaisesInvalidTable := by
  intro s t a hvalid h hcode
  change s.finish (aupdateChecks a s >>= _) = .next t at h
  rcases aupdateChecks_cases a s with ⟨c, tb, sp, -, -, -, he⟩ | ⟨e, he⟩ | ⟨k, hk, hw, he⟩ <;>
    rw [he] at h <;> cases h
  · cases hcode
  · obtain ⟨c, hc, hfalse⟩ := tsel_invalid_of_aupdateChecks (Code.eq_invalidTable hcode ▸ he)
    exact absurd (hvalid a c hc) (by simp [hfalse])
  · exact ⟨hcode, k, hk, hw⟩

/-! ## The register window -/

theorem Reg.offset_mod_four (r : Reg) : r.offset % 4 = 0 := by
  cases r with
  | arg i => exact Nat.mul_mod_right 4 i
  | _ => rfl

theorem Reg.offset_lt (r : Reg) : r.offset < 0x20 := by
  cases r with
  | arg i => simp only [Reg.offset]; omega
  | _ => decide

theorem regOfOffset_eq_some {o : Nat} {r : Reg} (h : regOfOffset o = some r) : o = r.offset := by
  unfold regOfOffset at h
  split_ifs at h <;> cases h <;> exact ‹o = _›

/-- An access reaches a register only as an aligned 32-bit access at the register's address (R38). -/
theorem State.regAt_eq_some {s : State} {addr size : Nat} {r : Reg}
    (h : s.regAt addr size = some r) :
    size = 4 ∧ addr % 4 = 0 ∧ addr = s.regBase + r.offset := by
  unfold regAt at h
  split at h
  next hacc =>
    obtain ⟨hsize, halign, hbase⟩ := hacc
    have := regOfOffset_eq_some h
    exact ⟨hsize, halign, by omega⟩
  next => cases h

/-- A load at a register's address reads the register (R29). -/
theorem hostAct_load_reg {s : State} (hbase : s.regBase % 4 = 0) (r : Reg) :
    hostAct s (.load (s.regBase + r.offset) 4) = .next (s.readReg r) := by
  simp only [hostAct, s.regAt_offset r hbase]

/-- A store at a register's address writes the register (R29). -/
theorem hostAct_store_reg {s : State} (hbase : s.regBase % 4 = 0) (r : Reg) (v : Word) :
    hostAct s (.store (s.regBase + r.offset) 4 v) = s.storeReg v r := by
  simp only [hostAct, s.regAt_offset r hbase]

theorem State.storeReg_arg {s : State} (hidle : s.inFlight = none) (i : Fin 5) (v : Word) :
    s.storeReg v (.arg i) = .next (s.writeArg i v) := by
  simp [storeReg, busy, hidle]

theorem State.storeReg_cmd {s : State} (hidle : s.inFlight = none) (v : Word) :
    s.storeReg v .cmd = runWord v (s.start v) := by
  simp [storeReg, busy, hidle]

theorem State.readReg_arg_written {s : State} {i : Fin 5} (h : s.argw[i] = true) :
    s.readReg (.arg i) = s.gotRead s.arg[i] := if_pos h

theorem State.readReg_arg_unwritten {s : State} {i : Fin 5} (h : s.argw[i] = false) :
    s.readReg (.arg i) = (s.gotRead s.drawn).advanceDraw := by
  simp only [readReg, h, Bool.false_eq_true, if_false]

theorem State.readReg_result_written {s : State} (hidle : s.inFlight = none) (h : s.resw = true) :
    s.readReg .result = s.gotRead s.result := by
  simp [readReg, busy, hidle, h]

theorem State.readReg_result_unwritten {s : State} (h : s.resw = false) :
    s.readReg .result = s.recordUnwrittenResult := if_pos h

theorem State.readReg_status_idle {s : State} (hidle : s.inFlight = none) :
    s.readReg .status = s.gotRead (statusWord s.code false) := by
  simp [readReg, busy, hidle]

/-- With BUSY = 0 the STATUS word is CODE (R33). -/
theorem statusWord_idle (c : BitVec 4) : statusWord c false = c.setWidth 32 := by
  simp [statusWord]

/-- Settles O39, by the window's load and store rules and what ARGi does with each. -/
theorem argWriteAndRead : Obligations.ArgWriteAndRead := by
  refine ⟨fun s i v hbase hidle => ?_, fun s i hbase hw => ?_, fun s i hbase hw => ?_⟩
  · refine ⟨s.writeArg i v, (hostAct_store_reg hbase (.arg i) v).trans (State.storeReg_arg hidle i v),
      by simp, by simp, fun j hj => ?_, rfl⟩
    have hij : i.val ≠ j.val := fun h => hj (Fin.ext h.symm)
    simp [Vector.getElem_set_ne, hij]
  · exact (hostAct_load_reg hbase (.arg i)).trans (congrArg _ (State.readReg_arg_written hw))
  · exact ⟨s.drawn, _, hostAct_load_reg hbase (.arg i), by rw [State.readReg_arg_unwritten hw]; rfl⟩

/-- Settles O40, by the window's load rule and what each register reads as. -/
theorem cmdResultAndStatusReads : Obligations.CmdResultAndStatusReads := by
  intro s hbase
  refine ⟨hostAct_load_reg hbase .cmd, fun hidle => ⟨s.code.setWidth 32, ?_, ?_, ?_⟩,
    fun hidle hw => ?_, fun hw => ?_⟩
  · rw [← BitVec.setWidth_eq_extractLsb' (by decide), BitVec.setWidth_setWidth_of_le _ (by decide),
      BitVec.setWidth_eq]
  · rw [BitVec.toNat_setWidth_of_le (by decide)]
    exact s.code.isLt
  · rw [← statusWord_idle]
    exact (hostAct_load_reg hbase .status).trans (congrArg _ (State.readReg_status_idle hidle))
  · exact (hostAct_load_reg hbase .result).trans (congrArg _ (State.readReg_result_written hidle hw))
  · exact (hostAct_load_reg hbase .result).trans (congrArg _ (State.readReg_result_unwritten hw))

/-- Settles O41: the window's store rule, for the two registers that ignore a store. -/
theorem resultAndStatusWritesAreIgnored : Obligations.ResultAndStatusWritesAreIgnored :=
  fun _ v hbase => ⟨hostAct_store_reg hbase .result v, hostAct_store_reg hbase .status v⟩

/-- Settles O42: every register lies at a multiple of 4 below 0x20 in the window, so such an access
reaches none. -/
theorem otherWindowAccessesAreRefused : Obligations.OtherWindowAccessesAreRefused := by
  intro s addr size v hbad
  have hnone : s.regAt addr size = none := by
    refine Option.eq_none_iff_forall_ne_some.2 fun r hr => ?_
    obtain ⟨hsize, halign, haddr⟩ := State.regAt_eq_some hr
    have hmod := r.offset_mod_four
    have hlt := r.offset_lt
    omega
  simp only [hostAct, hnone, and_self]

/-- A store to CMD with BUSY = 0 is the CMD write of its word (R31). -/
theorem hostAct_store_cmd {s : State} (hbase : s.regBase % 4 = 0) (hidle : s.inFlight = none)
    (v : Word) :
    hostAct s (.store (s.regBase + 0x14) 4 v) = hostEvent s (.cmd v []) :=
  calc hostAct s (.store (s.regBase + 0x14) 4 v)
      = s.storeReg v .cmd := hostAct_store_reg hbase .cmd v
    _ = runWord v (s.start v) := State.storeReg_cmd hidle v
    _ = hostEvent s (.cmd v []) := (hostEvent_cmd_nil hidle v).symm

/-- Settles O7: the step is the one that takes a CMD write of the word instead (`hostAct_store_cmd`),
and O6 says what that one does. -/
theorem cmdStoreIssuesTheCommand : Obligations.CmdStoreIssuesTheCommand := by
  intro s v rest hp hidle hbase
  have hstep : step s = step (s.withPending (.cmd v [] :: rest)) :=
    calc step s
        = hostEvent (s.withPending rest) (.cmd v []) := by
          rw [step_cons hp]
          exact hostAct_store_cmd (s := s.withPending rest) hbase hidle v
      _ = step (s.withPending (.cmd v [] :: rest)) :=
        (step_cons (s := s.withPending (.cmd v [] :: rest)) rfl).symm
  rw [hstep]
  exact stepRunsTheDecodedCommand.1 (s.withPending (.cmd v [] :: rest)) v rest rfl hidle

end Sys2Proof.Machine
end

section
/-! PROOFS of the statements from 20_memory.md: the host's writes and reads of data bytes, with BUSY = 0
(O48), beside a command that uses no byte (O49), and beside the view of a DIGEST or AUPDATE (O45, O46) or
the four bytes of an ADIGESTB (O47). -/

namespace Sys2Proof.Machine

/-! ## The bytes in use, and a host access beside them -/

/-- The running command is what the word in flight decodes to. -/
theorem State.running_iff {s : State} {w : Word} (hf : s.inFlight = some w) (i : Instr) :
    s.running = some i ↔ decode w = .ok i := by
  have hrun : s.running = (decode w).toOption := by simp only [running, hf, Option.bind_some]
  rw [hrun]
  cases hd : decode w with
  | ok j => simp [Except.toOption]
  | error e => simp [Except.toOption]

theorem State.running_idle {s : State} (hidle : s.inFlight = none) : s.running = none := by
  simp only [running, hidle, Option.bind_none]

/-- The bytes in use are those of the running command's span (R53). -/
theorem State.inUse_of_usedSpan {s : State} {i : Instr} {sp : Span} (hrun : s.running = some i)
    (hsp : usedSpan i s = some sp) (a : Nat) : s.inUse a = sp.has a := by
  simp only [inUse, hrun, Option.bind_some, hsp]

theorem State.inUse_of_usedSpan_none {s : State} (h : ∀ i, s.running = some i → usedSpan i s = none)
    (a : Nat) : s.inUse a = false := by
  have hnone : (s.running.bind fun i => usedSpan i s) = none := Option.bind_eq_none_iff.2 h
  simp only [inUse, hnone]

theorem State.inUse_idle {s : State} (hidle : s.inFlight = none) (a : Nat) : s.inUse a = false :=
  State.inUse_of_usedSpan_none (by simp [State.running_idle hidle]) a

/-- What a running ADIGESTB whose checks pass is storing: its digest's byte at each of its addresses. -/
theorem State.storing_of_checks {s : State} {k : Nat} {d : Word} {sp : Span}
    (hrun : s.running = some (.adigestb k)) (hc : adigestbChecks k s = .ok (d, sp)) (a : Nat) :
    s.storing a = if sp.has a = true then some (digestByte d (a - sp.lo)) else none := by
  simp only [storing, hrun, hc]

/-- A byte that is being stored is in use. -/
theorem State.storing_eq_none {s : State} {a : Nat} (hfree : s.inUse a = false) :
    s.storing a = none := by
  unfold storing
  split
  next k hrun =>
    split
    next d sp hc =>
      have hused : usedSpan (.adigestb k) s = some sp := by simp [usedSpan, hc, Except.toOption]
      have hout : sp.has a = false := (s.inUse_of_usedSpan hrun hused a).symm.trans hfree
      simp [hout]
    next => rfl
  next => rfl

theorem hostAct_place_in_use {s : State} {a : Nat} (ha : s.admits a = true) (hu : s.inUse a = true)
    (b : Byte) : hostAct s (.place a b) = .refused .memoryInUse := by
  simp only [hostAct, ha, hu, if_true]

theorem hostAct_place_free {s : State} {a : Nat} (ha : s.admits a = true) (hu : s.inUse a = false)
    (b : Byte) : hostAct s (.place a b) = .next (s.storeBytes a [b]) := by
  simp only [hostAct, ha, hu, if_true, Bool.false_eq_true, if_false]

theorem hostAct_peek {s : State} {a : Nat} (ha : s.admits a = true) :
    hostAct s (.peek a) = .next (s.peekByte a) := if_pos ha

/-- A host read of a byte that no command uses returns it. -/
theorem hostAct_peek_free {s : State} {a : Nat} (ha : s.admits a = true) (hu : s.inUse a = false) :
    hostAct s (.peek a) = .next (s.gotRead ((s.mem.read a).setWidth 32)) := by
  rw [hostAct_peek ha]
  simp only [State.peekByte, State.storing_eq_none hu]

/-- A host read of a byte that is being stored returns the old or the new one, by a draw (R182). -/
theorem State.peekByte_storing {s : State} {a : Nat} {new : Byte} (h : s.storing a = some new) :
    ∃ v, (v = s.mem.read a ∨ v = new) ∧
      s.peekByte a = (s.gotRead (v.setWidth 32)).advanceDraw := by
  refine ⟨if s.drawn.getLsbD 0 then new else s.mem.read a, ?_, by simp only [peekByte, h]⟩
  split
  · exact .inr rfl
  · exact .inl rfl

/-- The host's write of `b` at `a` is made, and changes that byte alone. -/
def PlacedAlone (s : State) (a : Nat) (b : Byte) : Prop :=
  ∃ t, hostAct s (.place a b) = .next t ∧ t = { s with mem := t.mem } ∧ t.mem.read a = b ∧
    ∀ x, x ≠ a → t.mem.read x = s.mem.read x

theorem placedAlone_of_free {s : State} {a : Nat} (hwf : s.mem.wf = true) (ha : s.admits a = true)
    (hu : s.inUse a = false) (b : Byte) : PlacedAlone s a b :=
  ⟨s.storeBytes a [b], hostAct_place_free ha hu b, rfl, Memory.read_write_same hwf a b,
    fun _ hx => Memory.read_write_other s.mem b hx⟩

/-! ## With BUSY = 0 -/

/-- Settles O48: with BUSY = 0 no byte is in use, before the host's write and after it. -/
theorem hostDataMemoryAccess : Obligations.HostDataMemoryAccess := by
  intro s a b hidle
  have hfree := State.inUse_idle hidle a
  refine ⟨fun ha => hostAct_peek_free ha hfree, fun hwf ha => ?_, fun ha => ?_⟩
  · have hread : (s.storeBytes a [b]).mem.read a = b := Memory.read_write_same hwf a b
    refine ⟨s.storeBytes a [b], hostAct_place_free ha hfree b, rfl,
      fun _ hx => Memory.read_write_other s.mem b hx, ?_⟩
    rw [hostAct_peek_free (s := s.storeBytes a [b]) ha (State.inUse_idle hidle a), hread]
    rfl
  · simp only [hostAct, ha, Bool.false_eq_true, if_false, and_self]

/-! ## Beside a command that uses no byte -/

theorem usedSpan_of_not_usesMemory {i : Instr} (h : usesMemory i = false) (s : State) :
    usedSpan i s = none := by
  cases i with
  | digest _ | aupdate _ | adigestb _ => cases h
  | tbuild _ | tread _ | abind _ _ | areset _ | adigest _ => rfl

/-- A command that fails a check uses no byte (log 14). -/
theorem usedSpan_of_fails {i : Instr} {s : State} (h : s.fails i) : usedSpan i s = none := by
  refine Option.eq_none_iff_forall_ne_some.2 fun sp hsp => ?_
  obtain ⟨t, ht, hpasses⟩ := exec_passes_of_usedSpan hsp
  exact h t ht hpasses

/-- Settles O49: neither kind of command has a span in use. -/
theorem memoryWritesWhileNoByteIsInUse : Obligations.MemoryWritesWhileNoByteIsInUse := by
  intro s w a b hf hnone hwf ha
  refine placedAlone_of_free hwf ha (State.inUse_of_usedSpan_none (fun i hrun => ?_) a) b
  rcases hnone i ((State.running_iff hf i).1 hrun) with hmem | hfails
  · exact usedSpan_of_not_usesMemory hmem s
  · exact usedSpan_of_fails hfails

/-! ## Beside the view of a DIGEST or AUPDATE -/

/-- The addresses of the view (R42, R43). -/
def State.viewSpan (s : State) : Span := ⟨s.viewAddr 0, s.viewLen⟩

theorem State.viewSpan_has_iff (s : State) (a : Nat) :
    s.viewSpan.has a = true ↔ ∃ j < s.viewLen, a = s.viewAddr j := by
  rw [Span.has_iff]
  simp only [viewSpan, viewAddr, Nat.add_zero]
  constructor
  · rintro ⟨hlo, hhi⟩
    exact ⟨a - (s.arg[0].toNat + s.arg[2].toInt.toNat), by omega, by omega⟩
  · rintro ⟨j, hj, rfl⟩
    omega

/-- The checks of readView pass where R106 and R43 say so. -/
theorem State.view_ok {s : State} (hr : s.rangeHolds) (hv : s.viewExists) :
    s.view = .ok s.viewSpan := by
  have hrange : rangeOk (s.argS 1) (s.argS 2) (s.argS 3) = true := by
    obtain ⟨hsize, hoff, hlen, hsum⟩ := hr
    exact (rangeOk_iff _ _ _).2 ⟨hsize, hoff, hlen, hsum⟩
  rw [view, if_pos hrange]
  exact s.checkSpan_ok (sp := s.viewSpan) hv

theorem digestChecks_ok {s : State} {n : Nat} {t : Table} {sp : Span} (hw : s.written [0, 1, 2, 3, 4])
    (ht : s.slot n = some t) (hv : s.view = .ok sp) : digestChecks n s = .ok (t, sp) := by
  simp only [digestChecks, s.checkArgs_ok (i := .digest n) hw, s.tableFor_some ht, hv, bind_ok]

theorem aupdateChecks_ok {s : State} {k : Nat} {c : Context} {t : Table} {sp : Span}
    (hw : s.written [0, 1, 2, 3]) (hc : s.context k = some c) (ht : s.slot c.tsel.toNat = some t)
    (hv : s.view = .ok sp) : aupdateChecks k s = .ok (c, t, sp) := by
  simp only [aupdateChecks, s.contextFor_some hc, s.checkArgs_ok (i := .aupdate k) hw,
    s.tableFor_some ht, hv, bind_ok]

/-- Host writes beside a command in flight that uses the view: what O45 and O46 share. -/
theorem place_beside_view {s : State} {w : Word} {i : Instr} {a : Nat} (hf : s.inFlight = some w)
    (hd : decode w = .ok i) (hsp : usedSpan i s = some s.viewSpan) (hwf : s.mem.wf = true)
    (ha : s.admits a = true) (b : Byte) :
    ((∃ j < s.viewLen, a = s.viewAddr j) → hostAct s (.place a b) = .refused .memoryInUse) ∧
    ((∀ j < s.viewLen, a ≠ s.viewAddr j) → PlacedAlone s a b) := by
  have huse : s.inUse a = s.viewSpan.has a :=
    State.inUse_of_usedSpan ((State.running_iff hf i).2 hd) hsp a
  refine ⟨fun hin => hostAct_place_in_use ha ?_ b, fun hout => placedAlone_of_free hwf ha ?_ b⟩
  · rw [huse]
    exact (s.viewSpan_has_iff a).2 hin
  · rw [huse, ← Bool.not_eq_true, s.viewSpan_has_iff]
    rintro ⟨j, hj, haj⟩
    exact hout j hj haj

/-- Settles O45: the bytes in use are the view's (`digestChecks_ok`). -/
theorem memoryWritesWhileDigestIsInFlight : Obligations.MemoryWritesWhileDigestIsInFlight := by
  intro s w n a b hf hd hw ht hr hv hwf ha
  obtain ⟨t, ht⟩ := (s.tvalid_iff n).1 ht
  have hsp : usedSpan (.digest n) s = some s.viewSpan := by
    simp only [usedSpan, digestChecks_ok hw ht (State.view_ok hr hv), Except.toOption, Option.map_some]
  exact place_beside_view hf hd hsp hwf ha b

/-- Settles O46: the bytes in use are the view's (`aupdateChecks_ok`). -/
theorem memoryWritesWhileAupdateIsInFlight : Obligations.MemoryWritesWhileAupdateIsInFlight := by
  intro s w k c a b hf hd hw hc ht hr hv hwf ha
  obtain ⟨t, ht⟩ := (s.tvalid_iff _).1 ht
  have hsp : usedSpan (.aupdate k) s = some s.viewSpan := by
    simp only [usedSpan, aupdateChecks_ok hw hc ht (State.view_ok hr hv), Except.toOption,
      Option.map_some]
  exact place_beside_view hf hd hsp hwf ha b

/-! ## Beside the four bytes of an ADIGESTB -/

/-- The addresses of the four destination bytes (R124). -/
def State.destSpan (s : State) : Span := ⟨s.argU 0, 4⟩

theorem State.destSpan_has_iff (s : State) (a : Nat) :
    s.destSpan.has a = true ↔ s.argU 0 ≤ a ∧ a < s.argU 0 + 4 := Span.has_iff s.destSpan a

theorem adigestbChecks_ok {s : State} {k : Nat} {c : Context} (hw : s.written [0])
    (hc : s.context k = some c) (hm : ∀ j < 4, s.admits (s.argU 0 + j) = true) :
    adigestbChecks k s = .ok (c.seed, s.destSpan) := by
  have hspan : s.checkSpan ⟨s.argU 0, 4⟩ = .ok s.destSpan := s.checkSpan_ok hm
  simp only [adigestbChecks, s.contextFor_some hc, s.checkArgs_ok (i := .adigestb k) hw, hspan,
    bind_ok]

/-- Settles O47: the bytes in use, and the bytes being stored, are the four from ARG0; every other
byte is free. -/
theorem memoryWhileAdigestbIsInFlight : Obligations.MemoryWhileAdigestbIsInFlight := by
  intro s w k c a b hf hd hw hc hm ha
  have hrun := (State.running_iff hf _).2 hd
  have hchecks := adigestbChecks_ok hw hc hm
  have hsp : usedSpan (.adigestb k) s = some s.destSpan := by
    simp only [usedSpan, hchecks, Except.toOption, Option.map_some]
  have huse : s.inUse a = s.destSpan.has a := State.inUse_of_usedSpan hrun hsp a
  have hfree (hout : a < s.argU 0 ∨ s.argU 0 + 4 ≤ a) : s.inUse a = false := by
    rw [huse, ← Bool.not_eq_true, s.destSpan_has_iff]
    omega
  refine ⟨fun j hj haj => ?_, fun hout => hostAct_peek_free ha (hfree hout),
    fun hwf hout => placedAlone_of_free hwf ha (hfree hout) b⟩
  have haj : a = s.argU 0 + j := haj
  have hin : s.destSpan.has a = true := (s.destSpan_has_iff a).2 (by omega)
  have hstoring : s.storing a = some (digestByte c.seed j) := by
    have hoff : a - s.destSpan.lo = j := by rw [haj]; exact Nat.add_sub_cancel_left ..
    rw [State.storing_of_checks hrun hchecks, if_pos hin, hoff]
  obtain ⟨v, hv, hpeek⟩ := State.peekByte_storing hstoring
  exact ⟨hostAct_place_in_use ha (huse.trans hin) b, v, _, hv,
    (hostAct_peek ha).trans (congrArg _ hpeek), rfl⟩

end Sys2Proof.Machine
end

section
/-! PROOFS of the statements from 30_encoding.md: decode and encode (O1 to O5), the host's actions while
BUSY = 1 (O8), and the ARG registers a command does not read (O30). -/

namespace Sys2Proof

/-! ## The four bytes of a command word -/

/-- The fields of a word put together are the word (R60). -/
theorem append_fields_eq (w : Word) :
    rsvdField w ++ accField w ++ slotField w ++ opField w = w := by
  unfold rsvdField accField slotField opField
  rw [BitVec.extractLsb'_append_extractLsb'_eq_extractLsb' (rfl : 24 = 16 + 8),
    BitVec.extractLsb'_append_extractLsb'_eq_extractLsb' (rfl : 16 = 8 + 8),
    BitVec.extractLsb'_append_extractLsb'_eq_extractLsb' (rfl : 8 = 0 + 8)]
  exact BitVec.extractLsb'_eq_self

@[simp] theorem opField_encode (i : Instr) : opField (encode i) = i.op.code :=
  (Laws.EncodedOp.of_op i).1

@[simp] theorem rsvdField_encode (i : Instr) : rsvdField (encode i) = 0#8 :=
  (Laws.EncodedOp.of_op i).2.2

@[simp] theorem slotField_encode (i : Instr) :
    slotField (encode i) = BitVec.ofNat 8 i.slotField := by
  unfold slotField encode
  rw [BitVec.extractLsb'_append_eq_of_le (by decide)]
  exact BitVec.extractLsb'_append_eq_right

@[simp] theorem accField_encode (i : Instr) : accField (encode i) = BitVec.ofNat 8 i.accField := by
  unfold accField encode
  rw [BitVec.extractLsb'_append_eq_of_le (by decide), BitVec.extractLsb'_append_eq_of_le (by decide)]
  exact BitVec.extractLsb'_append_eq_right

/-! ## The operation and the fields of a command -/

theorem Op.ofCode_eq_some_iff {b : Byte} {op : Op} : Op.ofCode b = some op ↔ b = op.code := by
  constructor
  · intro h
    unfold Op.ofCode at h
    split_ifs at h <;> cases h <;> assumption
  · rintro rfl
    cases op <;> rfl

@[simp] theorem Op.op_instr (op : Op) (slot acc : Nat) : (op.instr slot acc).op = op := by
  cases op <;> rfl

/-- A SLOT that is 0 where the operation does not use it is the command's SLOT field (R62). -/
theorem Op.slotField_instr {op : Op} {slot : Nat} (h : op.usesSlot = false → slot = 0) (acc : Nat) :
    (op.instr slot acc).slotField = slot := by
  cases op with
  | tbuild | tread | digest | abind => rfl
  | areset | aupdate | adigest | adigestb => exact (h rfl).symm

/-- An ACC that is 0 where the operation does not use it is the command's ACC field (R62). -/
theorem Op.accField_instr {op : Op} {acc : Nat} (h : op.usesAcc = false → acc = 0) (slot : Nat) :
    (op.instr slot acc).accField = acc := by
  cases op with
  | tbuild | tread | digest => exact (h rfl).symm
  | abind | areset | aupdate | adigest | adigestb => rfl

/-- Every command is its operation with its own fields. -/
theorem Instr.instr_op (i : Instr) : i.op.instr i.slotField i.accField = i := by cases i <;> rfl

theorem Instr.slotField_unused {i : Instr} (h : i.op.usesSlot = false) : i.slotField = 0 := by
  cases i with
  | tbuild | tread | digest | abind => cases h
  | areset | aupdate | adigest | adigestb => rfl

theorem Instr.accField_unused {i : Instr} (h : i.op.usesAcc = false) : i.accField = 0 := by
  cases i with
  | tbuild | tread | digest => rfl
  | abind | areset | aupdate | adigest | adigestb => cases h

/-- A command is well formed where both of its fields fit 8 bits (R60); an unused one is 0. -/
theorem Instr.wf_iff (i : Instr) : i.wf = true ↔ i.slotField < 256 ∧ i.accField < 256 := by
  cases i <;> simp [Instr.wf, fitsField, Instr.slotField, Instr.accField, and_comm]

/-! ## What the decoder takes -/

/-- The word is one of the operation's format: RSVD 0, its OP, and 0 in a field it does not use (R61,
R62, R66). -/
def Op.Formats (op : Op) (w : Word) : Prop :=
  rsvdField w = 0#8 ∧ opField w = op.code ∧ (op.usesSlot = false → slotField w = 0#8) ∧
    (op.usesAcc = false → accField w = 0#8)

/-- Everything the decoder answers a command to: the words of the operations' formats. -/
theorem decode_eq_ok_iff {w : Word} {i : Instr} :
    decode w = .ok i ↔
      ∃ op : Op, op.Formats w ∧ i = op.instr (slotField w).toNat (accField w).toNat := by
  constructor
  · intro h
    unfold decode at h
    split at h
    · cases h
    next hrsvd =>
      split at h
      · cases h
      next op hop =>
        split_ifs at h with hslot hacc
        cases h
        exact ⟨op, ⟨not_not.1 hrsvd, Op.ofCode_eq_some_iff.1 hop,
          fun hu => not_not.1 fun hne => hslot ⟨hu, hne⟩,
          fun hu => not_not.1 fun hne => hacc ⟨hu, hne⟩⟩, rfl⟩
  · rintro ⟨op, ⟨hrsvd, hcode, hslot, hacc⟩, rfl⟩
    have hop : Op.ofCode (opField w) = some op := Op.ofCode_eq_some_iff.2 hcode
    simp only [decode, hop]
    rw [if_neg (not_not.2 hrsvd), if_neg fun h => h.2 (hslot h.1), if_neg fun h => h.2 (hacc h.1)]

theorem decode_ok_iff_formats {w : Word} : (∃ i, decode w = .ok i) ↔ ∃ op : Op, op.Formats w := by
  simp only [decode_eq_ok_iff]
  exact ⟨fun ⟨_, op, hw, _⟩ => ⟨op, hw⟩, fun ⟨op, hw⟩ => ⟨_, op, hw, rfl⟩⟩

/-- The word of a command is one of its operation's format. -/
theorem formats_encode (i : Instr) : i.op.Formats (encode i) :=
  ⟨rsvdField_encode i, opField_encode i,
    fun h => by rw [slotField_encode, Instr.slotField_unused h],
    fun h => by rw [accField_encode, Instr.accField_unused h]⟩

/-- Settles O1: the encoded word is one of the operation's format (`formats_encode`), and a field that
fits 8 bits is read back as it was written. -/
theorem decodeOfEncodeIsTheCommand : Obligations.DecodeOfEncodeIsTheCommand := by
  intro i hwf
  obtain ⟨hslot, hacc⟩ := i.wf_iff.1 hwf
  refine decode_eq_ok_iff.2 ⟨i.op, formats_encode i, ?_⟩
  rw [slotField_encode, accField_encode, BitVec.toNat_ofNat, BitVec.toNat_ofNat,
    Nat.mod_eq_of_lt hslot, Nat.mod_eq_of_lt hacc, i.instr_op]

/-- Settles O2: each of the word's four bytes is the one that the command read from it is encoded
with. -/
theorem encodeOfDecodeIsTheWord : Obligations.EncodeOfDecodeIsTheWord := by
  intro w i h
  obtain ⟨op, ⟨hrsvd, hcode, hslot, hacc⟩, rfl⟩ := decode_eq_ok_iff.1 h
  have hs : (op.instr (slotField w).toNat (accField w).toNat).slotField = (slotField w).toNat :=
    Op.slotField_instr (fun hu => congrArg BitVec.toNat (hslot hu)) _
  have ha : (op.instr (slotField w).toNat (accField w).toNat).accField = (accField w).toNat :=
    Op.accField_instr (fun hu => congrArg BitVec.toNat (hacc hu)) _
  constructor
  · rw [Instr.wf_iff, hs, ha]
    exact ⟨(slotField w).isLt, (accField w).isLt⟩
  · rw [encode, hs, ha, Op.op_instr, BitVec.ofNat_toNat, BitVec.ofNat_toNat, BitVec.setWidth_eq,
      BitVec.setWidth_eq, ← hrsvd, ← hcode, append_fields_eq]

theorem Op.exists_iff {P : Op → Prop} :
    (∃ op, P op) ↔ P .tbuild ∨ P .tread ∨ P .digest ∨ P .abind ∨ P .areset ∨ P .aupdate ∨
      P .adigest ∨ P .adigestb := by
  constructor
  · rintro ⟨op, h⟩
    cases op <;> simp [h]
  · rintro (h | h | h | h | h | h | h | h) <;> exact ⟨_, h⟩

/-- Settles O4: the words of the operations' formats (`decode_ok_iff_formats`), written out for each of
the eight operations. -/
theorem decoderTakesExactlyTheEightFormats : Obligations.DecoderTakesExactlyTheEightFormats := by
  intro w
  rw [decode_ok_iff_formats, Op.exists_iff]
  simp only [Op.Formats, Op.code, Op.usesSlot, Op.usesAcc, reduceCtorEq, false_implies,
    forall_const, true_and, and_true, and_or_left]

/-- Settles O3, by running the decoder on the eight words. -/
theorem sampleWordsDecode : Obligations.SampleWordsDecode := by
  unfold Obligations.SampleWordsDecode
  decide

/-! ## The words the decoder does not take -/

/-- The OP values that R67 reserves. -/
def ReservedOp (b : Byte) : Prop :=
  b = 0x00#8 ∨ (0x03#8 ≤ b ∧ b ≤ 0x0F#8) ∨ (0x11#8 ≤ b ∧ b ≤ 0x1F#8) ∨ 0x25#8 ≤ b

theorem Op.not_reservedOp_code (op : Op) : ¬ ReservedOp op.code := by
  unfold ReservedOp
  cases op <;> decide

theorem Op.usesAcc_of_code {op : Op}
    (h : op.code = 0x01#8 ∨ op.code = 0x02#8 ∨ op.code = 0x10#8) : op.usesAcc = false := by
  revert h
  cases op <;> decide

theorem Op.usesSlot_of_code {op : Op}
    (h : op.code = 0x21#8 ∨ op.code = 0x22#8 ∨ op.code = 0x23#8 ∨ op.code = 0x24#8) :
    op.usesSlot = false := by
  revert h
  cases op <;> decide

end Sys2Proof

namespace Sys2Proof.Machine

/-- A word of no operation's format raises ILLEGAL_COMMAND (R68). -/
theorem runWord_of_not_formats {w : Word} (h : ∀ op : Op, ¬ op.Formats w) (s : State) :
    runWord w s = .next (s.raise .illegalCommand) := by
  cases hd : decode w with
  | ok i =>
    obtain ⟨op, hop⟩ := decode_ok_iff_formats.1 ⟨i, hd⟩
    exact absurd hop (h op)
  | error e => exact runWord_error hd s

/-- Settles O5: RSVD, OP, ACC or SLOT keeps such a word from every operation's format. -/
theorem wordsThatAreNoCommandRaiseIllegalCommand :
    Obligations.WordsThatAreNoCommandRaiseIllegalCommand := by
  intro s w hbad
  refine runWord_of_not_formats (fun op hop => ?_) s
  obtain ⟨hrsvd, hcode, hslot, hacc⟩ := hop
  rw [hcode] at hbad
  rcases hbad with hne | h0 | h3 | h11 | h25 | ⟨hop, hne⟩ | ⟨hop, hne⟩
  · exact hne hrsvd
  · exact op.not_reservedOp_code (.inl h0)
  · exact op.not_reservedOp_code (.inr (.inl h3))
  · exact op.not_reservedOp_code (.inr (.inr (.inl h11)))
  · exact op.not_reservedOp_code (.inr (.inr (.inr h25)))
  · exact hne (hacc (Op.usesAcc_of_code hop))
  · exact hne (hslot (Op.usesSlot_of_code hop))

/-! ## The host's actions while BUSY = 1 -/

/-- A CMD write with BUSY = 0: the host's actions meanwhile, then the word. -/
theorem hostEvent_cmd_next {s t : State} {w : Word} {during : List HostAction}
    (hidle : s.inFlight = none) (h : hostActs (s.start w) during = .next t) :
    hostEvent s (.cmd w during) = runWord w t := by
  simp [hostEvent, State.busy, hidle, h]

theorem hostEvent_cmd_refused {s : State} {w : Word} {during : List HostAction} {r : Refusal}
    (hidle : s.inFlight = none) (h : hostActs (s.start w) during = .refused r) :
    hostEvent s (.cmd w during) = .refused r := by
  simp [hostEvent, State.busy, hidle, h]

theorem hostEvent_cmd_fault {s : State} {w : Word} {during : List HostAction} {f : Fault}
    (hidle : s.inFlight = none) (h : hostActs (s.start w) during = .fault f) :
    hostEvent s (.cmd w during) = .fault f := by
  simp [hostEvent, State.busy, hidle, h]

theorem hostActs_cons_next {s u : State} {a : HostAction} (h : hostAct s a = .next u)
    (during : List HostAction) : hostActs s (a :: during) = hostActs u during := by
  simp only [hostActs, h]

theorem hostActs_cons_refused {s : State} {a : HostAction} {r : Refusal}
    (h : hostAct s a = .refused r) (during : List HostAction) :
    hostActs s (a :: during) = .refused r := by
  simp only [hostActs, h]

theorem hostActs_cons_fault {s : State} {a : HostAction} {f : Fault} (h : hostAct s a = .fault f)
    (during : List HostAction) : hostActs s (a :: during) = .fault f := by
  simp only [hostActs, h]

/-- Settles O8: the step takes the CMD write off the list (`step_cons`), does the actions, and then runs
the word, which decodes or raises ILLEGAL_COMMAND. -/
theorem commandRunsAfterTheHostsActionsMeanwhile :
    Obligations.CommandRunsAfterTheHostsActionsMeanwhile := by
  refine ⟨fun s w during rest hp hidle => ?_, fun s a during =>
    ⟨rfl, fun _ h => hostActs_cons_next h during, fun _ h => hostActs_cons_refused h during,
      fun _ h => hostActs_cons_fault h during⟩⟩
  have hidle' : (s.withPending rest).inFlight = none := hidle
  rw [step_cons hp]
  refine ⟨fun t ht => ?_, fun r hr => hostEvent_cmd_refused hidle' hr,
    fun f hf => hostEvent_cmd_fault hidle' hf⟩
  rw [hostEvent_cmd_next hidle' ht]
  exact ⟨fun i hd => runWord_ok hd t, fun e hd => runWord_error hd t⟩

/-! ## The ARG registers a command does not read -/

/-- `s` with value `v` and mark `m` in ARGk. -/
def State.putArg (s : State) (k : Fin 5) (v : Word) (m : Bool) : State :=
  { s with arg := s.arg.set k v, argw := s.argw.set k m }

section

variable {s : State} {k : Fin 5} (v : Word) (m : Bool)

theorem State.arg_putArg_other {j : Fin 5} (h : j ≠ k) : (s.putArg k v m).arg[j] = s.arg[j] := by
  have hkj : k.val ≠ j.val := fun he => h (Fin.ext he.symm)
  simp [putArg, Vector.getElem_set_ne, hkj]

theorem State.argw_putArg_other {j : Fin 5} (h : j ≠ k) :
    (s.putArg k v m).argw[j] = s.argw[j] := by
  have hkj : k.val ≠ j.val := fun he => h (Fin.ext he.symm)
  simp [putArg, Vector.getElem_set_ne, hkj]

theorem State.argU_putArg_other {j : Fin 5} (h : j ≠ k) : (s.putArg k v m).argU j = s.argU j :=
  congrArg BitVec.toNat (s.arg_putArg_other v m h)

theorem State.argS_putArg_other {j : Fin 5} (h : j ≠ k) : (s.putArg k v m).argS j = s.argS j :=
  congrArg BitVec.toInt (s.arg_putArg_other v m h)

/-! The contexts, the slots and what memory exists are looked up without the ARG registers. -/

@[simp] theorem State.contextFor_putArg (a : Nat) :
    (s.putArg k v m).contextFor a = s.contextFor a := rfl

@[simp] theorem State.tableFor_putArg (n : Nat) : (s.putArg k v m).tableFor n = s.tableFor n := rfl

@[simp] theorem State.tvalid_putArg (n : Nat) : (s.putArg k v m).tvalid n = s.tvalid n := rfl

@[simp] theorem State.numSlots_putArg : (s.putArg k v m).numSlots = s.numSlots := rfl

@[simp] theorem State.checkSpan_putArg (sp : Span) :
    (s.putArg k v m).checkSpan sp = s.checkSpan sp := rfl

theorem State.firstUnwritten_putArg {is : List (Fin 5)} (h : k ∉ is) :
    (s.putArg k v m).firstUnwritten is = s.firstUnwritten is := by
  induction is with
  | nil => rfl
  | cons j is ih =>
    obtain ⟨hj, his⟩ := List.ne_and_not_mem_of_not_mem_cons h
    simp only [firstUnwritten, s.argw_putArg_other v m (Ne.symm hj), ih his]

theorem State.checkArgs_putArg {i : Instr} (h : k ∉ argsRead i) :
    (s.putArg k v m).checkArgs i = s.checkArgs i := by
  simp only [checkArgs, s.firstUnwritten_putArg v m h]

/-- The view looks at ARG0 to ARG3 (R107). -/
theorem State.view_putArg (h : k ∉ ([0, 1, 2, 3] : List (Fin 5))) :
    (s.putArg k v m).view = s.view := by
  have hne (j : Fin 5) (hj : j ∈ [0, 1, 2, 3]) : j ≠ k := fun he => h (he ▸ hj)
  simp only [view, checkSpan_putArg, s.argU_putArg_other v m (hne 0 (by decide)),
    s.argS_putArg_other v m (hne 1 (by decide)), s.argS_putArg_other v m (hne 2 (by decide)),
    s.argS_putArg_other v m (hne 3 (by decide))]

theorem adigestbChecks_putArg {a : Nat} (h : k ∉ argsRead (.adigestb a)) :
    adigestbChecks a (s.putArg k v m) = adigestbChecks a s := by
  have hne : 0 ≠ k := fun he => h (he ▸ List.mem_cons_self)
  simp only [adigestbChecks, State.contextFor_putArg, s.checkArgs_putArg v m h,
    s.argU_putArg_other v m hne, State.checkSpan_putArg]

theorem aupdateChecks_putArg {a : Nat} (h : k ∉ argsRead (.aupdate a)) :
    aupdateChecks a (s.putArg k v m) = aupdateChecks a s := by
  simp only [aupdateChecks, State.contextFor_putArg, State.tableFor_putArg,
    s.checkArgs_putArg v m h, s.view_putArg v m h]

/-- A command's end commutes with an ARG register put where its checks and its write do. -/
theorem State.finish_putArg {t : State} {r r' : Except Stop State} (h : s.finish r = .next t)
    (hr : r' = (·.putArg k v m) <$> r) :
    (s.putArg k v m).finish r' = .next (t.putArg k v m) := by
  subst hr
  rcases s.finish_cases r with ⟨u, rfl, he⟩ | ⟨e, rfl, he⟩ | ⟨i, rfl, he⟩ <;>
    cases he.symm.trans h <;> rfl

/-- Every command's end is the same, but for that register, whatever stands in one it does not read. -/
theorem exec_putArg {i : Instr} {t : State} (hk : k ∉ argsRead i) (h : exec i s = .next t) :
    exec i (s.putArg k v m) = .next (t.putArg k v m) := by
  have hargs := s.checkArgs_putArg v m hk
  cases i with
  | tbuild n =>
    refine State.finish_putArg v m h ?_
    have hne : 0 ≠ k := fun he => hk (he ▸ List.mem_cons_self)
    have harg : (s.putArg k v m).arg[0] = s.arg[0] := s.arg_putArg_other v m hne
    simp only [hargs, harg, State.numSlots_putArg, State.tvalid_putArg, map_bind]
    congr 1
    funext _
    split_ifs <;> rfl
  | tread n =>
    refine State.finish_putArg v m h ?_
    have hne : 0 ≠ k := fun he => hk (he ▸ List.mem_cons_self)
    simp only [hargs, State.tableFor_putArg, s.argU_putArg_other v m hne, map_bind]
    congr 1
    funext _
    congr 1
    funext _
    split_ifs <;> rfl
  | digest n =>
    have hall : ∀ j : Fin 5, j ∈ [0, 1, 2, 3, 4] := by decide
    exact absurd (hall k) hk
  | abind a n =>
    refine State.finish_putArg v m h ?_
    simp only [hargs, State.contextFor_putArg, State.tableFor_putArg, map_bind, Except.map_ok]
    rfl
  | areset a =>
    refine State.finish_putArg v m h ?_
    simp only [hargs, State.contextFor_putArg, map_bind, Except.map_ok]
    rfl
  | aupdate a =>
    refine State.finish_putArg v m h ?_
    simp only [aupdateChecks_putArg v m hk, map_bind, Except.map_ok]
    rfl
  | adigest a =>
    refine State.finish_putArg v m h ?_
    simp only [hargs, State.contextFor_putArg, map_bind, Except.map_ok]
    rfl
  | adigestb a =>
    refine State.finish_putArg v m h ?_
    simp only [adigestbChecks_putArg v m hk, map_bind, Except.map_ok]
    rfl

end

/-- Settles O30: the register is none of those the command reads, so the command's end commutes with
what is put there (`exec_putArg`). -/
theorem commandsReadOnlyTheirListedArgs : Obligations.CommandsReadOnlyTheirListedArgs := by
  intro i s t k v m hunread h
  refine exec_putArg v m ?_ h
  cases i with
  | tbuild | tread | adigestb => exact fun hk => hunread (List.mem_singleton.1 hk)
  | digest => exact hunread.elim
  | aupdate =>
    obtain rfl := hunread
    have hfour : (4 : Fin 5) ∉ [0, 1, 2, 3] := by decide
    exact hfour
  | abind | areset | adigest => exact List.not_mem_nil

end Sys2Proof.Machine
end

section
/-! PROOFS of the statements from 40_table_builder.md: the table function build (O10 to O12), and the
commands TBUILD and TREAD (O16, O17). -/

namespace Sys2Proof

/-- Three bytes below a zero one are their shifted values put together. -/
theorem zero_append_bytes (a b c : Byte) :
    (0#8 ++ a ++ b ++ c : Word) =
      (a.setWidth 32 <<< 16) ||| (b.setWidth 32 <<< 8) ||| c.setWidth 32 := by
  ext k hk
  rw [← BitVec.getLsbD_eq_getElem, ← BitVec.getLsbD_eq_getElem]
  simp only [BitVec.getLsbD_append, BitVec.getLsbD_or, BitVec.getLsbD_shiftLeft,
    BitVec.getLsbD_setWidth, BitVec.getLsbD_zero]
  rcases lt_or_ge k 8 with hlow | hlow
  · simp [hlow, hk, show k < 16 by omega]
  rw [BitVec.getLsbD_of_ge c k hlow]
  rcases lt_or_ge k 16 with hmid | hmid
  · simp [hlow.not_gt, hmid, hk, show k - 8 < 8 by omega, show k - 8 < 32 by omega]
  rw [BitVec.getLsbD_of_ge b (k - 8) (by omega)]
  simpa [hlow.not_gt, hmid.not_gt, hk, Nat.sub_sub, show ¬ k - 8 < 8 by omega,
    show k - 16 < 32 by omega] using fun hbit => BitVec.lt_of_getLsbD (x := a) hbit

/-- A command's word is its fields, each shifted to its place (R60). -/
theorem encode_eq_or {i : Instr} (hwf : i.wf = true) :
    encode i = (BitVec.ofNat 32 i.accField <<< 16) ||| (BitVec.ofNat 32 i.slotField <<< 8) |||
      i.op.code.setWidth 32 := by
  obtain ⟨hslot, hacc⟩ := i.wf_iff.1 hwf
  rw [encode, zero_append_bytes, BitVec.setWidth_ofNat_of_le_of_lt (by decide) hacc,
    BitVec.setWidth_ofNat_of_le_of_lt (by decide) hslot]

end Sys2Proof

namespace Sys2Proof.Machine

/-! ## The table function -/

/-- An entry by its number and by its byte are the same. -/
theorem build_getElem_eq_at (p : Word) (i : Nat) (h : i < 256) :
    (build p)[i] = (builtTable p).at (BitVec.ofNat 8 i) := by
  rw [build_getElem p i h, builtTable_at, tableEntry,
    BitVec.setWidth_ofNat_of_le_of_lt (by decide) h]

theorem divSteps_eq_iterate (p : Word) (n : Nat) (r : Word) :
    divSteps p n r = (divStep p)^[n] r := by
  induction n generalizing r with
  | zero => rfl
  | succ n ih => rw [divSteps, ih, Function.iterate_succ_apply]

/-- `k` steps bring the bit at place `k` to the low end. -/
theorem divSteps_twoPow (p : Word) {k : Nat} (hk : k < 32) :
    divSteps p k (BitVec.twoPow 32 k) = 1#32 := by
  rw [divSteps_eq_ushiftRight p k _ fun j hj => by simp [hj.ne']]
  refine BitVec.eq_of_toNat_eq ?_
  rw [BitVec.toNat_ushiftRight, BitVec.toNat_twoPow_of_lt hk, Nat.shiftRight_eq_div_pow,
    Nat.div_self (by positivity)]
  rfl

/-- The step that shifts out the only bit set gives the polynomial. -/
theorem divStep_one (p : Word) : divStep p 1#32 = p := by
  simp [divStep_eq]

/-- The entry at 2^k (R87): `k` steps bring the one bit of the index to the low end, the next one
gives `p`, and `7 - k` are left. -/
theorem builtTable_at_two_pow (p : Word) {k : Nat} (hk : k ≤ 7) :
    (builtTable p).at (BitVec.ofNat 8 (2 ^ k)) = (divStep p)^[7 - k] p := by
  have hindex : (BitVec.ofNat 8 (2 ^ k)).setWidth 32 = BitVec.twoPow 32 k := by
    rw [BitVec.setWidth_ofNat_of_le_of_lt (by decide) (Nat.pow_lt_pow_right (by decide) (by omega))]
    exact BitVec.eq_of_toNat_eq (by simp)
  calc (builtTable p).at (BitVec.ofNat 8 (2 ^ k))
      = (divStep p)^[7 - k + 1 + k] (BitVec.twoPow 32 k) := by
        rw [builtTable_at, hindex, divSteps_eq_iterate, show 7 - k + 1 + k = 8 by omega]
    _ = (divStep p)^[7 - k] p := by
        rw [Function.iterate_add_apply, ← divSteps_eq_iterate p k,
          divSteps_twoPow p (by omega), Function.iterate_succ_apply, divStep_one]

/-- build is linear in its index (R86). -/
theorem builtTable_at_xor (p : Word) (a b : Byte) :
    (builtTable p).at (a ^^^ b) = (builtTable p).at a ^^^ (builtTable p).at b := by
  simp only [builtTable_at, BitVec.setWidth_xor, divSteps_xor]

theorem builtTable_at_zero (p : Word) : (builtTable p).at 0#8 = 0#32 := by
  simpa using builtTable_at_xor p 0#8 0#8

/-- The entry of an XOR of bytes is the XOR of their entries. -/
theorem builtTable_at_foldl_xor (p : Word) (bs : List Byte) :
    (bs.map (builtTable p).at).foldl (· ^^^ ·) 0#32 =
      (builtTable p).at (bs.foldl (· ^^^ ·) 0#8) := by
  rw [List.foldl_map, ← builtTable_at_zero p]
  exact List.foldl_hom _ fun x y => (builtTable_at_xor p x y).symm

/-! ### A byte as the XOR of its bits -/

/-- Bit `k` of a byte, in place. -/
def bitInPlace (b : Byte) (k : Nat) : Byte :=
  if b.getLsbD k = true then BitVec.ofNat 8 (2 ^ k) else 0#8

theorem getLsbD_bitInPlace (b : Byte) (k j : Nat) :
    (bitInPlace b k).getLsbD j = (decide (j = k) && b.getLsbD j) := by
  have htwo : BitVec.ofNat 8 (2 ^ k) = BitVec.twoPow 8 k := BitVec.eq_of_toNat_eq (by simp)
  rw [bitInPlace, htwo, ← BitVec.and_twoPow, BitVec.getLsbD_and, BitVec.getLsbD_twoPow]
  rcases lt_or_ge j 8 with hj | hj
  · by_cases hkj : j = k
    · subst hkj; simp [hj]
    · simp [hkj, Ne.symm hkj]
  · simp [BitVec.getLsbD_of_ge b j hj]

/-- The XOR of the bits below `n` keeps just these. -/
theorem getLsbD_foldl_bitInPlace (b : Byte) (n j : Nat) :
    (((List.range n).map (bitInPlace b)).foldl (· ^^^ ·) 0#8).getLsbD j =
      (decide (j < n) && b.getLsbD j) := by
  induction n with
  | zero => simp
  | succ n ih =>
    rw [List.range_succ, List.map_append, List.foldl_append, List.map_singleton, List.foldl_cons,
      List.foldl_nil, BitVec.getLsbD_xor, ih, getLsbD_bitInPlace]
    rcases lt_trichotomy j n with h | rfl | h
    · simp [h, h.ne, h.trans (Nat.lt_succ_self n)]
    · simp
    · simp [h.ne', h.not_gt, (Nat.succ_le_of_lt h).not_gt]

/-- A byte is the XOR of its bits. -/
theorem foldl_bitInPlace (b : Byte) : ((List.range 8).map (bitInPlace b)).foldl (· ^^^ ·) 0#8 = b := by
  refine BitVec.eq_of_getLsbD_eq fun j hj => ?_
  rw [getLsbD_foldl_bitInPlace, decide_eq_true hj, Bool.true_and]

/-- Settles O10: entry 0 by linearity (`builtTable_at_zero`), entry 128 as the entry at 2^7 with no
step left (`builtTable_at_two_pow`). -/
theorem buildEntriesZeroAndOneHundredTwentyEight :
    Obligations.BuildEntriesZeroAndOneHundredTwentyEight := by
  have h128 (p : Word) : (build p)[128] = p :=
    (build_getElem_eq_at p 128 (by decide)).trans (builtTable_at_two_pow p le_rfl)
  refine ⟨fun p => ⟨?_, h128 p⟩, fun p q hpq => ?_⟩
  · exact (build_getElem_eq_at p 0 (by decide)).trans (builtTable_at_zero p)
  · rwa [h128, h128]

/-- Settles O11: build is linear (`builtTable_at_xor`), and a byte is the XOR of its bits
(`foldl_bitInPlace`), so its entry is the XOR of their entries. -/
theorem buildIsLinearInItsIndex : Obligations.BuildIsLinearInItsIndex := by
  refine ⟨builtTable_at_xor, fun p b => ?_, fun p => ?_, ?_⟩
  · have hterm : (fun k => if b.getLsbD k = true then (builtTable p).at (BitVec.ofNat 8 (2 ^ k))
        else 0#32) = (builtTable p).at ∘ bitInPlace b := by
      funext k
      rw [Function.comp_apply, bitInPlace, apply_ite (builtTable p).at, builtTable_at_zero]
    rw [hterm, ← List.map_map, builtTable_at_foldl_xor, foldl_bitInPlace]
  · simp only [build_getElem_eq_at, ← builtTable_at_xor]
    refine congrArg (builtTable p).at ?_
    decide
  · rw [build_getElem]
    decide

/-- Settles O12: the one bit of the index 2^k is shifted out after `k` steps and leaves `p` to the
other `7 - k` (`builtTable_at_two_pow`). -/
theorem buildPowerOfTwoEntries : Obligations.BuildPowerOfTwoEntries := by
  refine ⟨divStep_eq, fun p _ => builtTable_at_two_pow p, ?_, ?_⟩
  · rw [build_getElem]
    decide
  · rw [build_getElem]
    decide

/-! ## TBUILD and TREAD -/

theorem State.tvalid_eq_false_iff (s : State) (n : Nat) : s.tvalid n = false ↔ s.slot n = none :=
  Option.isSome_eq_false_iff.trans Option.isNone_iff_eq_none

/-- There is no table at or above NUM_SLOTS. -/
theorem State.slot_eq_none_of_le (s : State) {n : Nat} (h : s.numSlots ≤ n) : s.slot n = none :=
  Option.eq_none_iff_forall_ne_some.2 fun _ ht => (s.slot_lt ht).not_ge h

section

variable {s : State} {n : Nat}

/-- TBUILD into an empty custom slot (R82). -/
theorem exec_tbuild_empty (hw : s.written [0]) (h0 : n ≠ 0) (hn : n < s.numSlots)
    (he : s.tvalid n = false) :
    exec (.tbuild n) s = .next (s.setSlot n (builtTable s.arg[0])).complete := by
  have hcustom : ¬ (n = 0 ∨ n ≥ s.numSlots) := by omega
  simp only [exec, execTbuild, s.checkArgs_ok (i := .tbuild n) hw, bind_ok, if_neg hcustom, he,
    Bool.false_eq_true, if_false, State.finish_ok]

/-- TBUILD of any other slot (R82). -/
theorem exec_tbuild_refuses (hw : s.written [0])
    (h : n = 0 ∨ s.numSlots ≤ n ∨ s.tvalid n = true) :
    exec (.tbuild n) s = .next (s.raise .illegalCommand) := by
  simp only [exec, execTbuild, s.checkArgs_ok (i := .tbuild n) hw, bind_ok]
  split_ifs with hcustom hv
  · rfl
  · rfl
  · obtain ⟨h0, hn⟩ := not_or.1 hcustom
    exact absurd ((h.resolve_left h0).resolve_left hn) hv

/-- TREAD of an index below 256 in a slot that holds a table (R83). -/
theorem exec_tread_entry {t : Table} (hw : s.written [0]) (ht : s.slot n = some t)
    (hi : s.argU 0 < 256) :
    exec (.tread n) s = .next (s.setResult (t.entries[s.argU 0]'hi)).complete := by
  simp only [exec, execTread, s.checkArgs_ok (i := .tread n) hw, bind_ok, s.tableFor_some ht,
    dif_pos hi, State.finish_ok]

/-- TREAD of a slot that holds no table (R83). -/
theorem exec_tread_invalidTable (hw : s.written [0]) (ht : s.slot n = none) :
    exec (.tread n) s = .next (s.raise .invalidTable) := by
  simp only [exec, execTread, s.checkArgs_ok (i := .tread n) hw, bind_ok, s.tableFor_none ht,
    bind_error, State.finish_raise]

/-- TREAD of an index that is no byte, which is not reduced (R83). -/
theorem exec_tread_invalidRange {t : Table} (hw : s.written [0]) (ht : s.slot n = some t)
    (hi : ¬ s.argU 0 < 256) :
    exec (.tread n) s = .next (s.raise .invalidRange) := by
  simp only [exec, execTread, s.checkArgs_ok (i := .tread n) hw, bind_ok, s.tableFor_some ht,
    dif_neg hi, State.finish_raise]

end

/-- Settles O16: the checks decide between the two ends (`exec_tbuild_empty`, `exec_tbuild_refuses`);
putting a table into a slot leaves all else. -/
theorem tbuildBuildsOnceIntoACustomSlot : Obligations.TbuildBuildsOnceIntoACustomSlot := by
  refine ⟨fun n hn => ?_, fun s n hw h0 hn he => ?_, fun s n hw => exec_tbuild_refuses hw⟩
  · have hwf : (Instr.tbuild n).wf = true := decide_eq_true hn
    simpa [Instr.accField, Instr.slotField, Instr.op, Op.code] using encode_eq_or hwf
  · exact ⟨_, exec_tbuild_empty hw h0 hn he, rfl, s.numSlots_setSlot _ _,
      s.slot_setSlot_same _ h0 hn, fun _ => s.slot_setSlot_other _, fun _ => rfl⟩

/-- Settles O17: one end of the command for each clause (`exec_tread_entry`, `exec_tread_invalidTable`,
`exec_tread_invalidRange`). -/
theorem treadReadsOneEntry : Obligations.TreadReadsOneEntry := by
  refine ⟨fun n hn => ?_, fun s n tb b hw ht hb => ?_, fun s n hw hno => ?_,
    fun s n hw _ hv hi => ?_⟩
  · have hwf : (Instr.tread n).wf = true := decide_eq_true hn
    simpa [Instr.accField, Instr.slotField, Instr.op, Op.code] using encode_eq_or hwf
  · have hindex : s.argU 0 = b.toNat := (congrArg BitVec.toNat hb).trans
      (BitVec.toNat_setWidth_of_le (by decide))
    have hi : s.argU 0 < 256 := hindex ▸ b.isLt
    have hentry : tb.entries[s.argU 0]'hi = tb.at b := by simp only [hindex, Table.at]
    rw [exec_tread_entry hw ht hi, hentry]
    rfl
  · refine exec_tread_invalidTable hw ?_
    exact hno.elim s.slot_eq_none_of_le (s.tvalid_eq_false_iff n).1
  · obtain ⟨t, ht⟩ := (s.tvalid_iff n).1 hv
    exact exec_tread_invalidRange hw ht (not_lt.2 hi)

end Sys2Proof.Machine
end

section
/-! PROOFS of the statements from 41_digest_engine.md: the digest of the empty sequence (O13), the
chaining law (O14), DIGEST (O18), and AUPDATE of a fresh context beside DIGEST (O27). -/

namespace Sys2Proof.Machine

/-! ## The digest function -/

/-- The loop of R100 carries its state from one sequence to the next. -/
theorem crcLoop_append (t : Table) (b1 b2 : List Byte) (state : Word) :
    crcLoop t state (b1 ++ b2) = crcLoop t (crcLoop t state b1) b2 := by
  induction b1 generalizing state with
  | nil => rfl
  | cons b b1 ih => exact ih (crcStep t state b)

@[simp] theorem digestOf_nil (t : Table) (seed : Word) : digestOf t [] seed = seed := rfl

/-- The complement at the end of one digest and the one at the start of the next cancel (R110). -/
theorem digestOf_append (t : Table) (b1 b2 : List Byte) (seed : Word) :
    digestOf t (b1 ++ b2) seed = digestOf t b2 (digestOf t b1 seed) := by
  simp only [digestOf_eq, crcLoop_append, BitVec.not_not]

theorem digestOf_flatten (t : Table) (chunks : List (List Byte)) (seed : Word) :
    digestOf t chunks.flatten seed = chunks.foldl (fun x b => digestOf t b x) seed := by
  induction chunks generalizing seed with
  | nil => rfl
  | cons b chunks ih => rw [List.flatten_cons, digestOf_append, ih, List.foldl_cons]

/-- Settles O13: step 1 of R100 answers the empty sequence, and the complements cancel there
(`digestOf_eq`). -/
theorem emptySequenceGivesTheSeed : Obligations.EmptySequenceGivesTheSeed :=
  ⟨digestOf_nil, digestOf_eq⟩

/-- Settles O14: the loop is carried on from one sequence to the next (`digestOf_append`); then by
induction on the chunks (`digestOf_flatten`). -/
theorem chainingLaw : Obligations.ChainingLaw :=
  ⟨fun t seed b1 b2 => (digestOf_append t b1 b2 seed).symm,
    fun t seed chunks => (digestOf_flatten t chunks seed).symm⟩

/-! ## The view -/

/-- The range check on ARG1 to ARG3 is the condition of R106. -/
theorem State.rangeOk_args_iff (s : State) :
    rangeOk (s.argS 1) (s.argS 2) (s.argS 3) = true ↔ s.rangeHolds :=
  rangeOk_iff _ _ _

/-- A view whose range check fails (R106). -/
theorem State.view_invalidRange {s : State} (hr : ¬ s.rangeHolds) :
    s.view = .error (.raise .invalidRange) :=
  if_neg fun hok => hr (s.rangeOk_args_iff.1 hok)

/-- A view in range with a byte that does not exist (R43, R107). -/
theorem State.view_busError {s : State} (hr : s.rangeHolds) (hv : ¬ s.viewExists) :
    s.view = .error (.raise .busError) := by
  rw [view, if_pos (s.rangeOk_args_iff.2 hr)]
  exact if_neg fun hok => hv ((s.admitsSpan_iff s.viewSpan).1 hok)

/-- The bytes read at the view's addresses are the sequence it describes (R42). -/
theorem State.bytesOf_viewSpan {s : State} {bytes : List Byte} (h : s.isView bytes) :
    s.bytesOf s.viewSpan = bytes :=
  s.mem.readBytes_eq_of (s.viewAddr 0) s.viewLen bytes h.1 h.2

/-! ## DIGEST and AUPDATE -/

section

variable {s : State} {n : Nat}

/-- DIGEST of a view whose checks pass (R109). -/
theorem exec_digest_view {t : Table} {sp : Span} (hw : s.written [0, 1, 2, 3, 4])
    (ht : s.slot n = some t) (hv : s.view = .ok sp) :
    exec (.digest n) s = .next (s.setResult (digestOf t (s.bytesOf sp) s.arg[4])).complete := by
  simp only [exec, execDigest, digestChecks_ok hw ht hv, bind_ok, State.finish_ok]

/-- DIGEST with a slot that holds no table (R108). -/
theorem exec_digest_invalidTable (hw : s.written [0, 1, 2, 3, 4]) (ht : s.slot n = none) :
    exec (.digest n) s = .next (s.raise .invalidTable) := by
  simp only [exec, execDigest, digestChecks, s.checkArgs_ok (i := .digest n) hw, bind_ok,
    s.tableFor_none ht, bind_error, State.finish_raise]

/-- DIGEST of a view that raises an error (R106, R107), the table being there. -/
theorem exec_digest_view_error {e : Code} (hw : s.written [0, 1, 2, 3, 4])
    (ht : s.tvalid n = true) (hv : s.view = .error (.raise e)) :
    exec (.digest n) s = .next (s.raise e) := by
  obtain ⟨t, ht⟩ := (s.tvalid_iff n).1 ht
  simp only [exec, execDigest, digestChecks, s.checkArgs_ok (i := .digest n) hw, bind_ok,
    s.tableFor_some ht, hv, bind_error, State.finish_raise]

/-- AUPDATE of a view whose checks pass (R122). -/
theorem exec_aupdate_view {a : Nat} {c : Context} {t : Table} {sp : Span}
    (hw : s.written [0, 1, 2, 3]) (hc : s.context a = some c) (ht : s.slot c.tsel.toNat = some t)
    (hv : s.view = .ok sp) :
    exec (.aupdate a) s =
      .next (s.setContext a { c with seed := digestOf t (s.bytesOf sp) c.seed }).complete := by
  simp only [exec, execAupdate, aupdateChecks_ok hw hc ht hv, bind_ok, State.finish_ok]

end

/-- Settles O18: one end of the command for each clause (`exec_digest_view`,
`exec_digest_invalidTable`, `exec_digest_view_error`). -/
theorem digestDigestsTheView : Obligations.DigestDigestsTheView := by
  refine ⟨fun n hn => ?_, fun s n tb bytes hw ht hr hv hb => ?_, fun s n hw hno => ?_,
    fun s n hw _ ht hr => ?_, fun s n hw _ ht hr hv => ?_⟩
  · have hwf : (Instr.digest n).wf = true := decide_eq_true hn
    simpa [Instr.accField, Instr.slotField, Instr.op, Op.code] using encode_eq_or hwf
  · rw [exec_digest_view hw ht (State.view_ok hr hv), State.bytesOf_viewSpan hb]
    rfl
  · exact exec_digest_invalidTable hw
      (hno.elim s.slot_eq_none_of_le (s.tvalid_eq_false_iff n).1)
  · exact exec_digest_view_error hw ht (State.view_invalidRange hr)
  · exact exec_digest_view_error hw ht (State.view_busError hr hv)

/-- Settles O27: both commands digest the bytes of the same span with the same table, the one from the
fresh context's seed 0, the other from ARG4 = 0. -/
theorem accumulatorAgreesWithTheOneShotDigest :
    Obligations.AccumulatorAgreesWithTheOneShotDigest := by
  intro s a tsel hw hseed hc ht hr hv
  obtain ⟨tb, ht⟩ := (s.tvalid_iff _).1 ht
  have hview := State.view_ok hr hv
  have hw4 : s.written [0, 1, 2, 3] := fun i hi => hw i (List.mem_append_left [4] hi)
  refine ⟨_, _, exec_aupdate_view hw4 hc ht hview, exec_digest_view hw ht hview, ?_⟩
  rw [State.complete_context, State.context_setContext_same s _ (s.context_lt hc),
    State.complete_result, State.setResult_result, hseed]

end Sys2Proof.Machine
end

section
/-! PROOFS of the statements from 42_accumulator.md: the accumulator's commands (O19 to O23), that each
touches only the context it names (O26), and SEED as the digest of what the context has absorbed (O24,
O25). -/

namespace Sys2Proof

/-- A command that uses no SLOT has its ACC field and its OP value in its word (R60, R62). -/
theorem encode_of_slotField_zero {i : Instr} (hwf : i.wf = true) (hslot : i.slotField = 0) :
    encode i = (BitVec.ofNat 32 i.accField <<< 16) ||| i.op.code.setWidth 32 := by
  rw [encode_eq_or hwf, hslot]
  simp

end Sys2Proof

namespace Sys2Proof.Machine

/-! ## How the accumulator's commands end -/

theorem State.exists_context_of_lt (s : State) {a : Nat} (h : a < s.numAcc) :
    ∃ c, s.context a = some c := ⟨s.accs[a]'h, List.getElem?_eq_getElem h⟩

/-- A command that reads no ARG register passes their check. -/
theorem State.checkArgs_of_reads_none (s : State) {i : Instr} (h : argsRead i = []) :
    s.checkArgs i = .ok () :=
  s.checkArgs_ok (h ▸ List.forall_mem_nil _)

section

variable {s : State} {a : Nat} {c : Context}

/-- The check ACC < NUM_ACC comes first in every command that names a context (R64, R68). -/
theorem exec_no_context {i : Instr} (hn : namesContext i a) (ha : s.numAcc ≤ a) :
    exec i s = .next (s.raise .illegalCommand) := by
  obtain ⟨huses, rfl⟩ := hn
  have hctx : s.contextFor i.accField = .error (.raise .illegalCommand) := s.contextFor_none ha
  cases i with
  | tbuild | tread | digest => cases huses
  | abind | areset | adigest => exact congrArg (fun r => s.finish (r >>= _)) hctx
  | aupdate | adigestb => exact congrArg (fun r => s.finish ((r >>= _) >>= _)) hctx

/-- ABIND to a slot that holds a table (R120). -/
theorem exec_abind_table {n : Nat} {t : Table} (hc : s.context a = some c) (ht : s.slot n = some t) :
    exec (.abind a n) s = .next (s.setContext a ⟨0#32, BitVec.ofNat 8 n⟩).complete := by
  simp only [exec, execAbind, s.contextFor_some hc,
    s.checkArgs_of_reads_none (i := .abind a n) rfl, s.tableFor_some ht, bind_ok, State.finish_ok]

/-- ABIND to a slot that holds no table (R120). -/
theorem exec_abind_invalidTable {n : Nat} (hc : s.context a = some c) (ht : s.slot n = none) :
    exec (.abind a n) s = .next (s.raise .invalidTable) := by
  simp only [exec, execAbind, s.contextFor_some hc,
    s.checkArgs_of_reads_none (i := .abind a n) rfl, s.tableFor_none ht, bind_ok,
    bind_error, State.finish_raise]

/-- ARESET of a context that exists (R121). -/
theorem exec_areset_context (hc : s.context a = some c) :
    exec (.areset a) s = .next (s.setContext a { c with seed := 0#32 }).complete := by
  simp only [exec, execAreset, s.contextFor_some hc,
    s.checkArgs_of_reads_none (i := .areset a) rfl, bind_ok, State.finish_ok]

/-- AUPDATE of a context whose slot holds no table (R122). -/
theorem exec_aupdate_invalidTable (hw : s.written [0, 1, 2, 3]) (hc : s.context a = some c)
    (ht : s.slot c.tsel.toNat = none) : exec (.aupdate a) s = .next (s.raise .invalidTable) := by
  simp only [exec, execAupdate, aupdateChecks, s.contextFor_some hc,
    s.checkArgs_ok (i := .aupdate a) hw, s.tableFor_none ht, bind_ok, bind_error, State.finish_raise]

/-- AUPDATE with a view that raises an error (R106, R107), the table being there. -/
theorem exec_aupdate_view_error {e : Code} (hw : s.written [0, 1, 2, 3]) (hc : s.context a = some c)
    (ht : s.tvalid c.tsel.toNat = true) (hv : s.view = .error (.raise e)) :
    exec (.aupdate a) s = .next (s.raise e) := by
  obtain ⟨t, ht⟩ := (s.tvalid_iff _).1 ht
  simp only [exec, execAupdate, aupdateChecks, s.contextFor_some hc,
    s.checkArgs_ok (i := .aupdate a) hw, s.tableFor_some ht, hv, bind_ok, bind_error,
    State.finish_raise]

/-- ADIGEST of a context that exists (R123). -/
theorem exec_adigest_context (hc : s.context a = some c) :
    exec (.adigest a) s = .next (s.setResult c.seed).complete := by
  simp only [exec, execAdigest, s.contextFor_some hc,
    s.checkArgs_of_reads_none (i := .adigest a) rfl, bind_ok, State.finish_ok]

/-- ADIGESTB where the four bytes exist (R124). -/
theorem exec_adigestb_stores (hw : s.written [0]) (hc : s.context a = some c)
    (hm : ∀ k < 4, s.admits (s.argU 0 + k) = true) :
    exec (.adigestb a) s = .next (s.storeBytes (s.argU 0) (digestBytes c.seed)).complete := by
  simp only [exec, execAdigestb, adigestbChecks_ok hw hc hm, bind_ok, State.finish_ok]
  rfl

/-- ADIGESTB where one of the four bytes does not exist (R124). -/
theorem exec_adigestb_busError (hw : s.written [0]) (ha : a < s.numAcc)
    (hm : ∃ k < 4, s.admits (s.argU 0 + k) = false) :
    exec (.adigestb a) s = .next (s.raise .busError) := by
  obtain ⟨c, hc⟩ := s.exists_context_of_lt ha
  have hspan : s.checkSpan ⟨s.argU 0, 4⟩ = .error (.raise .busError) := by
    obtain ⟨k, hk, hfalse⟩ := hm
    rcases s.checkSpan_cases ⟨s.argU 0, 4⟩ with ⟨hall, -⟩ | ⟨-, herr⟩
    · cases hfalse.symm.trans (hall k hk)
    · exact herr
  simp only [exec, execAdigestb, adigestbChecks, s.contextFor_some hc,
    s.checkArgs_ok (i := .adigestb a) hw, hspan, bind_ok, bind_error, State.finish_raise]

/-- The command ends OK with `c` in context `a`, and nothing else is changed but STATUS. -/
def EndsInContext (i : Instr) (s : State) (a : Nat) (c : Context) : Prop :=
  ∃ t, exec i s = .next t ∧ t = { s with accs := t.accs, code := 0#4, inFlight := none } ∧
    t.numAcc = s.numAcc ∧ t.context a = some c ∧
    (∀ b, b ≠ a → t.context b = s.context b) ∧ ∀ x, t.mem.read x = s.mem.read x

theorem endsInContext_of_exec {i : Instr} (ha : a < s.numAcc)
    (h : exec i s = .next (s.setContext a c).complete) : EndsInContext i s a c :=
  ⟨_, h, rfl, s.numAcc_setContext a c, s.context_setContext_same c ha,
    fun _ => s.context_setContext_other c, fun _ => rfl⟩

end

/-- Byte k of the four bytes stored is d[8k+7:8k] (R47). -/
theorem digestBytes_getElem (d : Word) (k : Nat) (h : k < (digestBytes d).length) :
    (digestBytes d)[k] = digestByte d k := by
  have hmap : digestBytes d = (List.range 4).map (digestByte d) := rfl
  simp [hmap]

/-! ## The commands -/

/-- Settles O19: one end of the command for each clause (`exec_abind_table`,
`exec_abind_invalidTable`, `exec_no_context`). -/
theorem abindMakesAFreshContext : Obligations.AbindMakesAFreshContext := by
  refine ⟨fun a ha n hn => ?_, fun s a n ha hn hv => ?_, fun s a n ha hno => ?_,
    fun s a n ha => exec_no_context ⟨rfl, rfl⟩ ha⟩
  · have hwf : (Instr.abind a n).wf = true := (Instr.wf_iff _).2 ⟨hn, ha⟩
    exact encode_eq_or hwf
  · obtain ⟨tb, ht⟩ := (s.tvalid_iff n).1 hv
    obtain ⟨c, hc⟩ := s.exists_context_of_lt ha
    obtain ⟨t, hexec, hframe, hnum, hnew, hother, hmem⟩ :=
      endsInContext_of_exec ha (exec_abind_table hc ht)
    exact ⟨t, _, hexec, hframe, hnum, hnew, rfl, Nat.mod_eq_of_lt hn, hother, hmem⟩
  · obtain ⟨c, hc⟩ := s.exists_context_of_lt ha
    exact exec_abind_invalidTable hc (hno.elim s.slot_eq_none_of_le (s.tvalid_eq_false_iff n).1)

/-- Settles O20 (`exec_areset_context`, `exec_no_context`). -/
theorem aresetClearsTheSeedAndKeepsTheTable : Obligations.AresetClearsTheSeedAndKeepsTheTable :=
  ⟨fun a ha => encode_of_slotField_zero (i := .areset a) (decide_eq_true ha) rfl,
    fun s _ _ hc => endsInContext_of_exec (s.context_lt hc) (exec_areset_context hc),
    fun _ _ ha => exec_no_context ⟨rfl, rfl⟩ ha⟩

/-- Settles O21: one end of the command for each clause, the view answering as in DIGEST
(`exec_aupdate_view`, `exec_aupdate_invalidTable`, `exec_aupdate_view_error`, `exec_no_context`). -/
theorem aupdateAbsorbsTheView : Obligations.AupdateAbsorbsTheView := by
  refine ⟨fun a ha => encode_of_slotField_zero (i := .aupdate a) (decide_eq_true ha) rfl,
    fun s a c tb bytes hw hc ht hr hv hb => ?_, fun s a c hw hc ht => ?_,
    fun s a c hw hc ht hr => ?_, fun s a c hw hc ht hr hv => ?_,
    fun _ _ ha => exec_no_context ⟨rfl, rfl⟩ ha⟩
  · have hexec := exec_aupdate_view hw hc ht (State.view_ok hr hv)
    rw [State.bytesOf_viewSpan hb] at hexec
    exact endsInContext_of_exec (s.context_lt hc) hexec
  · exact exec_aupdate_invalidTable hw hc ((s.tvalid_eq_false_iff _).1 ht)
  · exact exec_aupdate_view_error hw hc ht (State.view_invalidRange hr)
  · exact exec_aupdate_view_error hw hc ht (State.view_busError hr hv)

/-- Settles O22 (`exec_adigest_context`, `exec_no_context`). -/
theorem adigestReadsTheSeed : Obligations.AdigestReadsTheSeed :=
  ⟨fun a ha => encode_of_slotField_zero (i := .adigest a) (decide_eq_true ha) rfl,
    fun _ _ _ hc => exec_adigest_context hc, fun _ _ ha => exec_no_context ⟨rfl, rfl⟩ ha⟩

/-- Settles O23: the bytes stored read back in place, and the others read as before
(`exec_adigestb_stores`); the error clauses are `exec_adigestb_busError` and `exec_no_context`. -/
theorem adigestbStoresFourLittleEndianBytes :
    Obligations.AdigestbStoresFourLittleEndianBytes := by
  refine ⟨fun a ha => encode_of_slotField_zero (i := .adigestb a) (decide_eq_true ha) rfl,
    fun s a c hwf hw hc hm => ?_, fun _ _ hw ha hm => exec_adigestb_busError hw ha hm,
    fun _ _ ha => exec_no_context ⟨rfl, rfl⟩ ha⟩
  refine ⟨_, exec_adigestb_stores hw hc hm, rfl, Memory.wf_writeBytes hwf _ _, fun k hk => ?_,
    fun x hx => Memory.read_writeBytes_other s.mem (digestBytes c.seed) hx⟩
  exact (Memory.read_writeBytes_same hwf (s.argU 0) (digestBytes c.seed) k hk).trans
    (digestBytes_getElem c.seed k hk)

/-! ## The context a command names -/

/-- The context that a command writes when its checks pass (R120, R121, R122). -/
def contextWritten : Instr → Option Nat
  | .abind acc _ | .areset acc | .aupdate acc => some acc
  | .tbuild _ | .tread _ | .digest _ | .adigest _ | .adigestb _ => none

theorem Writes.context {i : Instr} {s u : State} {a : Nat} (hw : Writes i s u)
    (ha : contextWritten i ≠ some a) : u.context a = s.context a := by
  have hne (acc : Nat) (hacc : contextWritten i = some acc) : a ≠ acc := fun h => ha (h ▸ hacc)
  cases hw with
  | abind _ _ => exact s.context_setContext_other _ (hne _ rfl)
  | areset _ => exact s.context_setContext_other _ (hne _ rfl)
  | aupdate _ _ _ => exact s.context_setContext_other _ (hne _ rfl)
  | _ => rfl

/-- A command leaves every context but the one it writes (R127). -/
theorem exec_context {i : Instr} {s t : State} {a : Nat} (h : exec i s = .next t)
    (ha : contextWritten i ≠ some a) : t.context a = s.context a := by
  rcases exec_writes_or_keeps h with ⟨u, hw, rfl⟩ | hkeep
  · exact hw.context ha
  · rw [hkeep]; rfl

/-- A command that names context `a` writes no other. -/
theorem contextWritten_ne_of_names {i : Instr} {a b : Nat} (hn : namesContext i a) (hb : b ≠ a) :
    contextWritten i ≠ some b := by
  obtain ⟨-, rfl⟩ := hn
  cases i with
  | abind | areset | aupdate => exact fun h => hb (Option.some.inj h).symm
  | tbuild | tread | digest | adigest | adigestb => exact nofun

section

variable {s : State} {a b : Nat} (c : Context)

theorem State.contextFor_setContext_other (h : a ≠ b) :
    (s.setContext b c).contextFor a = s.contextFor a := by
  simp only [contextFor, s.context_setContext_other c h]

theorem State.setContext_comm (d : Context) (h : a ≠ b) :
    (s.setContext b c).setContext a d = (s.setContext a d).setContext b c := by
  simp only [setContext, List.set_comm c d h.symm]

/-! The slots, the ARG registers and what memory exists are looked up without the contexts. -/

@[simp] theorem State.tableFor_setContext (n : Nat) :
    (s.setContext b c).tableFor n = s.tableFor n := rfl

@[simp] theorem State.checkArgs_setContext (i : Instr) :
    (s.setContext b c).checkArgs i = s.checkArgs i := by cases i <;> rfl

@[simp] theorem State.view_setContext : (s.setContext b c).view = s.view := rfl

theorem aupdateChecks_setContext_other (h : a ≠ b) :
    aupdateChecks a (s.setContext b c) = aupdateChecks a s := by
  simp only [aupdateChecks, State.contextFor_setContext_other c h, State.checkArgs_setContext,
    State.tableFor_setContext, State.view_setContext]

theorem adigestbChecks_setContext_other (h : a ≠ b) :
    adigestbChecks a (s.setContext b c) = adigestbChecks a s := by
  simp only [adigestbChecks, State.contextFor_setContext_other c h, State.checkArgs_setContext]
  rfl

/-- A command's end commutes with a context put where its checks and its write do. -/
theorem State.finish_setContext {t : State} {r r' : Except Stop State} (h : s.finish r = .next t)
    (hr : r' = (·.setContext b c) <$> r) :
    (s.setContext b c).finish r' = .next (t.setContext b c) := by
  subst hr
  rcases s.finish_cases r with ⟨u, rfl, he⟩ | ⟨e, rfl, he⟩ | ⟨i, rfl, he⟩ <;>
    cases he.symm.trans h <;> rfl

/-- A command that names context `a` ends the same, but for that context, whatever stands in another
(R127). -/
theorem exec_setContext_other {i : Instr} {t : State} (hn : namesContext i a) (hab : a ≠ b)
    (h : exec i s = .next t) : exec i (s.setContext b c) = .next (t.setContext b c) := by
  obtain ⟨huses, hacc⟩ := hn
  have hctx := s.contextFor_setContext_other c hab
  cases i with
  | tbuild | tread | digest => cases huses
  | abind acc n =>
    obtain rfl : acc = a := hacc
    refine State.finish_setContext c h ?_
    simp only [hctx, State.checkArgs_setContext, State.tableFor_setContext, map_bind, Except.map_ok,
      State.setContext_comm c _ hab]
  | areset acc =>
    obtain rfl : acc = a := hacc
    refine State.finish_setContext c h ?_
    simp only [hctx, State.checkArgs_setContext, map_bind, Except.map_ok,
      State.setContext_comm c _ hab]
  | aupdate acc =>
    obtain rfl : acc = a := hacc
    refine State.finish_setContext c h ?_
    simp only [aupdateChecks_setContext_other c hab, map_bind, Except.map_ok,
      State.setContext_comm c _ hab]
    rfl
  | adigest acc =>
    obtain rfl : acc = a := hacc
    refine State.finish_setContext c h ?_
    simp only [hctx, State.checkArgs_setContext, map_bind, Except.map_ok]
    rfl
  | adigestb acc =>
    obtain rfl : acc = a := hacc
    refine State.finish_setContext c h ?_
    simp only [adigestbChecks_setContext_other c hab, map_bind, Except.map_ok]
    rfl

end

/-- Settles O26: the one context a command writes is the one it names (`exec_context`), and its checks
and its write commute with a change of another (`exec_setContext_other`). -/
theorem commandsTouchOnlyTheContextTheyName : Obligations.CommandsTouchOnlyTheContextTheyName :=
  fun _ _ _ _ _ c hn hb h =>
    ⟨exec_context h (contextWritten_ne_of_names hn hb), exec_setContext_other c hn hb.symm h⟩

/-! ## SEED as the digest of what the context has absorbed -/

section

variable {s t : State} {a : Nat} {b : List Byte}

/-- The law of R125 looks at the one context and at the tables that are there. -/
theorem State.seedIsDigest.of_same (h : s.seedIsDigest a b) (hc : t.context a = s.context a)
    (hslots : ∀ n tb, s.slot n = some tb → t.slot n = some tb) : t.seedIsDigest a b := by
  intro c hcon
  obtain ⟨tb, ht, hseed⟩ := h c (hc.symm.trans hcon)
  exact ⟨tb, hslots _ tb ht, hseed⟩

/-- Contexts as R171 leaves them have absorbed nothing. -/
theorem State.seedIsDigest_of_fresh {m : Nat} (h : s.accs = List.replicate m ⟨0#32, 0#8⟩) (a : Nat) :
    s.seedIsDigest a [] := by
  intro c hc
  obtain rfl : c = ⟨0#32, 0#8⟩ := List.eq_of_mem_replicate (h ▸ List.mem_of_getElem? hc)
  exact ⟨defaultTable, s.slot_zero, rfl⟩

/-- A context just written holds the law of its new SEED. -/
theorem State.seedIsDigest_setContext {c : Context} {tb : Table} (ht : s.slot c.tsel.toNat = some tb)
    (hseed : c.seed = digestOf tb b 0#32) : (s.setContext a c).seedIsDigest a b := by
  intro d hd
  have ha : a < s.numAcc := by simpa using State.context_lt _ hd
  obtain rfl : c = d := Option.some.inj ((s.context_setContext_same c ha).symm.trans hd)
  exact ⟨tb, ht, hseed⟩

/-- No command takes away a table (R22). -/
theorem exec_keeps_tables {i : Instr} (h : exec i s = .next t) (n : Nat) (tb : Table)
    (hn : s.slot n = some tb) : t.slot n = some tb := by
  rcases exec_slots h with hkeep | ⟨m, -, hempty, -, hkeep⟩
  · exact (hkeep n).trans hn
  · have hnm : n ≠ m := by rintro rfl; cases hempty.symm.trans hn
    exact (hkeep n hnm).trans hn

/-- A command that does not write context `a` leaves what it has absorbed. -/
theorem exec_seedIsDigest_of_not_written {i : Instr} (ha : contextWritten i ≠ some a)
    (h : s.seedIsDigest a b) (he : exec i s = .next t) :
    t.seedIsDigest a (absorbed a i s t b) := by
  have hsame : absorbed a i s t b = b := by
    cases i with
    | abind acc n => exact if_neg fun hx => ha (congrArg some hx.1)
    | areset acc => exact if_neg fun hx => ha (congrArg some hx.1)
    | aupdate acc => exact if_neg fun hx => ha (congrArg some hx)
    | tbuild | tread | digest | adigest | adigestb => rfl
  rw [hsame]
  exact h.of_same (exec_context he ha) (exec_keeps_tables he)

/-- A command that reads no ARG register ends OK or with an error, which leaves the context: where its
write empties what the context has absorbed, so does its end with OK. -/
theorem exec_seedIsDigest_of_emptied {i : Instr} (hargs : argsRead i = []) (h : s.seedIsDigest a b)
    (he : exec i s = .next t) (hw : ∀ u, Writes i s u → u.seedIsDigest a []) :
    t.seedIsDigest a (if t.code = codeOk then [] else b) := by
  rcases exec_ends i s with ⟨u, hu, hr⟩ | ⟨e, hr⟩ | ⟨k, hk, -, -⟩
  · cases hr.symm.trans he
    exact hw u hu
  · cases hr.symm.trans he
    rw [if_neg (by simp)]
    exact h
  · exact absurd (hargs ▸ hk) List.not_mem_nil

/-- ABIND empties the context it binds, and its TSEL names the slot because there are at most 256. -/
theorem exec_abind_seedIsDigest {n : Nat} (hslots : s.numSlots ≤ 256) (h : s.seedIsDigest a b)
    (he : exec (.abind a n) s = .next t) : t.seedIsDigest a (absorbed a (.abind a n) s t b) := by
  simp only [absorbed, true_and]
  refine exec_seedIsDigest_of_emptied rfl h he fun u hu => ?_
  cases hu with
  | abind hc ht =>
    have htsel : (BitVec.ofNat 8 n).toNat = n :=
      Nat.mod_eq_of_lt ((s.slot_lt ht).trans_le hslots)
    exact State.seedIsDigest_setContext (by rwa [htsel]) rfl

/-- ARESET empties the context, whose table stays. -/
theorem exec_areset_seedIsDigest (h : s.seedIsDigest a b) (he : exec (.areset a) s = .next t) :
    t.seedIsDigest a (absorbed a (.areset a) s t b) := by
  simp only [absorbed, true_and]
  refine exec_seedIsDigest_of_emptied rfl h he fun u hu => ?_
  cases hu with
  | areset hc =>
    obtain ⟨tb, ht, -⟩ := h _ hc
    exact State.seedIsDigest_setContext ht rfl

/-- AUPDATE appends the view, by the chaining law (R110). -/
theorem exec_aupdate_seedIsDigest (h : s.seedIsDigest a b) (he : exec (.aupdate a) s = .next t) :
    t.seedIsDigest a (absorbed a (.aupdate a) s t b) := by
  change s.finish (aupdateChecks a s >>= _) = .next t at he
  simp only [absorbed, if_true]
  rcases aupdateChecks_cases a s with ⟨c, tb, sp, hc, ht, -, hchecks⟩ | ⟨e, hchecks⟩ |
      ⟨k, -, -, hchecks⟩ <;> rw [hchecks] at he ⊢ <;> cases he
  · obtain ⟨tb', ht', hseed⟩ := h c hc
    obtain rfl : tb = tb' := Option.some.inj (ht.symm.trans ht')
    exact State.seedIsDigest_setContext ht (by rw [digestOf_append, ← hseed])
  · exact h
  · exact h

/-- Every command keeps the law of R125, what the context has absorbed changing as `absorbed` says. -/
theorem exec_seedIsDigest {i : Instr} (hslots : s.numSlots ≤ 256) (h : s.seedIsDigest a b)
    (he : exec i s = .next t) : t.seedIsDigest a (absorbed a i s t b) := by
  by_cases ha : contextWritten i = some a
  · cases i with
    | abind acc n => cases ha; exact exec_abind_seedIsDigest hslots h he
    | areset acc => cases ha; exact exec_areset_seedIsDigest h he
    | aupdate acc => cases ha; exact exec_aupdate_seedIsDigest h he
    | tbuild | tread | digest | adigest | adigestb => cases ha
  · exact exec_seedIsDigest_of_not_written ha h he

/-- A host action that is no CMD write and no reset input leaves every context. -/
theorem Acts.context {x : HostAction} (hx : Acts s x t) (hreset : x ≠ .reset)
    (hcmd : ∀ addr size v, x = .store addr size v → s.busy = false → s.regAt addr size ≠ some .cmd)
    (a : Nat) : t.context a = s.context a := by
  cases hx with
  | record _ _ h => rw [h]; rfl
  | arg _ _ => rfl
  | cmd hb hr _ => exact absurd hr (hcmd _ _ _ rfl hb)
  | place _ _ => rfl
  | reset _ => exact absurd rfl hreset

theorem absorbedStep_command {i : Instr} {u : State} (hreset : s.resets = false)
    (hs : s.started = some (i, u)) (a : Nat) (t : State) (b : List Byte) :
    absorbedStep a s t b = absorbed a i u t b := by
  simp [absorbedStep, hreset, hs]

theorem absorbedStep_no_command (hreset : s.resets = false) (hs : s.started = none) (a : Nat)
    (t : State) (b : List Byte) : absorbedStep a s t b = b := by
  simp [absorbedStep, hreset, hs]

theorem absorbedStep_reset (hreset : s.resets = true) (a : Nat) (t : State) (b : List Byte) :
    absorbedStep a s t b = [] := if_pos hreset

end

/-- Settles O25, by the cases of what a step can do: a command finds the step's own contexts and slots
when it starts and keeps the law (`exec_seedIsDigest`), the reset input leaves fresh contexts, and
nothing else touches a context or a slot. -/
theorem seedIsTheDigestOfWhatWasAbsorbed : Obligations.SeedIsTheDigestOfWhatWasAbsorbed := by
  intro s t a b hslots h hstep
  cases step_steps hstep with
  | command hs hr hf he =>
    rw [absorbedStep_command hr hs]
    refine exec_seedIsDigest (hf.numSlots.trans_le hslots) ?_ he
    exact h.of_same (hf.context a) fun n _ hn => (hf.slot n).trans hn
  | illegal hs hr hf =>
    rw [absorbedStep_no_command hr hs]
    exact h.of_same (hf.context a) fun n _ hn => (hf.slot n).trans hn
  | idle hs hr =>
    rw [absorbedStep_no_command hr hs]
    exact h
  | act hp hs hr ha hc hn =>
    rw [absorbedStep_no_command hr hs]
    exact h.of_same (ha.context hc hn a) fun n _ hslot => (ha.slot hc hn n).trans hslot
  | reset hp hs hr =>
    rw [absorbedStep_reset hr]
    exact State.seedIsDigest_of_fresh rfl a

/-- Settles O24: after reset every context is fresh (`State.seedIsDigest_of_fresh`). -/
theorem freshSeedIsTheDigestOfNothing : Obligations.FreshSeedIsTheDigestOfNothing :=
  fun _ _ => State.seedIsDigest_of_fresh rfl

end Sys2Proof.Machine
end

section
/-! PROOFS of the statements from 60_exceptions.md: how every command ends (O29), and the step of an
idle block (O9). -/

namespace Sys2Proof.Machine

/-! ## How a command ends -/

theorem Code.bits_pos (e : Code) : 1 ≤ e.bits.toNat := by cases e <;> decide

/-- A command's write records no model fault (R174). -/
theorem Writes.faults {i : Instr} {s u : State} (hw : Writes i s u) : u.faults = s.faults := by
  rw [hw.frame]

/-- Settles O29, by the three ends of a command (`exec_ends`): its write completes with OK, an error
leaves `State.raise`, an unwritten ARG leaves `State.recordUnwrittenArg`. -/
theorem everyCommandEndsAndErrorsArePrecise : Obligations.EveryCommandEndsAndErrorsArePrecise := by
  intro i s
  rcases exec_ends i s with ⟨u, hw, hr⟩ | ⟨e, hr⟩ | ⟨k, hk, hunwritten, hr⟩
  · exact ⟨u.complete, hr, u.complete_inFlight, .inl ⟨u.complete_code, hw.faults⟩⟩
  · exact ⟨s.raise e, hr, rfl, .inr (.inl ⟨e.bits, e.bits_pos, e.bits_le, rfl⟩)⟩
  · exact ⟨s.recordUnwrittenArg k, hr, rfl, .inr (.inr ⟨k, hk, hunwritten, rfl⟩)⟩

/-! ## The idle block -/

/-- A step with no host action coming is the block's own. -/
theorem step_nil {s : State} (h : s.pending = []) : step s = idle s := by
  unfold step; rw [h]

theorem idle_of_no_command {s : State} (h : s.inFlight = none) : idle s = .next s := by
  unfold idle; rw [h]

/-- Settles O9: with no host action coming the step is `idle`, which keeps a state with BUSY = 0. -/
theorem idleBlockKeepsItsState : Obligations.IdleBlockKeepsItsState :=
  fun _ hpending hidle => (step_nil hpending).trans (idle_of_no_command hidle)

end Sys2Proof.Machine
end

section
/-! PROOFS of the statements from 70_reset_and_hazards.md: reset (O37, O38), the command that reads an
unwritten ARG (O31), the hazards while BUSY = 1 (O43, O44, O50), what the next command sees (O28), and
the end of a run (O51, O52). -/

namespace Sys2Proof.Machine

/-! ## BUSY -/

theorem State.busy_of_inFlight {s : State} {w : Word} (hf : s.inFlight = some w) :
    s.busy = true := by
  simp [busy, hf]

/-! ## Reset -/

/-- Where the custom slots are as reset leaves them, only slot 0 holds a table (R21, R171). -/
theorem State.slot_eq_none_of_emptied {s : State} {m n : Nat}
    (hcustom : s.custom = List.replicate m none) (h0 : n ≠ 0) : s.slot n = none := by
  rw [s.slot_pos h0, hcustom, List.getElem?_replicate]
  split <;> rfl

/-- Where the contexts are as reset leaves them, each has SEED 0 and TSEL 0 (R171). -/
theorem State.context_of_emptied {s : State} {m a : Nat}
    (haccs : s.accs = List.replicate m ⟨0#32, 0#8⟩) (ha : a < m) :
    s.context a = some ⟨0#32, 0#8⟩ := by
  rw [context, haccs]
  exact List.getElem?_replicate_of_lt ha

theorem argw_replicate_false (i : Fin 5) : (Vector.replicate 5 false)[i] = false :=
  Vector.getElem_replicate i.isLt

/-- Settles O37: the rows of R171 are read off the state that reset leaves. -/
theorem stateAfterReset : Obligations.StateAfterReset := by
  intro p m ⟨hslots, _⟩
  have hnum : (State.resetOn p m).numSlots = p.numSlots := by
    simp only [State.numSlots, State.resetOn, List.length_replicate]
    omega
  exact ⟨hnum, List.length_replicate, rfl, fun n h0 => State.slot_eq_none_of_emptied rfl h0,
    fun a ha => State.context_of_emptied rfl ha, argw_replicate_false, rfl, statusWord_idle 0#4, rfl, rfl⟩

theorem hostAct_reset_idle {s : State} (hidle : s.inFlight = none) :
    hostAct s .reset = .next s.applyReset := by
  simp [hostAct, State.busy, hidle]

/-- The reset input keeps NUM_SLOTS (log 17). -/
theorem State.numSlots_applyReset (s : State) : s.applyReset.numSlots = s.numSlots := by
  simp only [numSlots, applyReset_custom, List.length_replicate]

/-- The reset input keeps NUM_ACC (log 17). -/
theorem State.numAcc_applyReset (s : State) : s.applyReset.numAcc = s.numAcc := by
  simp only [numAcc, applyReset_accs, List.length_replicate]

/-- Settles O38: the step takes the reset input off the list (`step_cons`) and leaves
`State.applyReset`, whose stores are as reset leaves them; BUSY alone decides the refusal. -/
theorem resetInput : Obligations.ResetInput := by
  refine ⟨fun s rest hp hidle => ?_, fun s w hf => if_pos (State.busy_of_inFlight hf)⟩
  have hstep : step s = .next (s.withPending rest).applyReset := by
    rw [step_cons hp]
    exact hostAct_reset_idle (s := s.withPending rest) hidle
  exact ⟨_, hstep, rfl, fun n h0 => State.slot_eq_none_of_emptied rfl h0,
    State.numSlots_applyReset _, State.numAcc_applyReset _,
    fun a ha => State.context_of_emptied rfl ha, argw_replicate_false, rfl, rfl, rfl, by
      rw [hidle]; rfl, fun _ => rfl⟩

/-! ## A command that reads an unwritten ARG -/

/-- The commands read their ARG registers in rising order (the table of R65). -/
theorem argsRead_pairwise_lt (i : Instr) : (argsRead i).Pairwise (· < ·) := by
  cases i <;> simp [argsRead]

/-- In a rising list the fault is that of the register below which all are written. -/
theorem State.firstUnwritten_of_least {s : State} {is : List (Fin 5)} {k : Fin 5}
    (hsorted : is.Pairwise (· < ·)) (hk : k ∈ is) (hunwritten : s.argw[k] = false)
    (hbelow : ∀ j ∈ is, j < k → s.argw[j] = true) : s.firstUnwritten is = some k := by
  induction is with
  | nil => cases hk
  | cons i is ih =>
    obtain ⟨hlt, hsorted⟩ := List.pairwise_cons.1 hsorted
    rcases List.mem_cons.1 hk with rfl | hk
    · simp only [firstUnwritten, hunwritten, Bool.false_eq_true, if_false]
    · have hi : s.argw[i] = true := hbelow i List.mem_cons_self (hlt k hk)
      rw [firstUnwritten, if_pos hi]
      exact ih hsorted hk fun j hj => hbelow j (List.mem_cons_of_mem i hj)

/-- A command stops where the check of its ARG registers does, the context it names being there: that
check comes before all others (R68). -/
theorem exec_of_checkArgs_error {i : Instr} {s : State} {e : Stop}
    (hctx : ∀ a, namesContext i a → a < s.numAcc) (he : s.checkArgs i = .error e) :
    exec i s = s.finish (.error e) := by
  cases i with
  | tbuild | tread => exact congrArg (fun r => s.finish (r >>= _)) he
  | digest => exact congrArg (fun r => s.finish ((r >>= _) >>= _)) he
  | abind | areset | adigest => cases (s.checkArgs_of_reads_none rfl).symm.trans he
  | aupdate a =>
    obtain ⟨c, hc⟩ := s.exists_context_of_lt (hctx a ⟨rfl, rfl⟩)
    simp only [exec, execAupdate, aupdateChecks, s.contextFor_some hc, he, bind_ok, bind_error]
  | adigestb a =>
    obtain ⟨c, hc⟩ := s.exists_context_of_lt (hctx a ⟨rfl, rfl⟩)
    simp only [exec, execAdigestb, adigestbChecks, s.contextFor_some hc, he, bind_ok, bind_error]

/-- Settles O31: ARGk is the first unwritten register the command reads
(`State.firstUnwritten_of_least`), so the check of the ARG registers stops it. -/
theorem unwrittenArgIsRecordedWithNoOtherEffect :
    Obligations.UnwrittenArgIsRecordedWithNoOtherEffect := by
  intro i s k hctx hk hunwritten hbelow
  have hfirst := State.firstUnwritten_of_least (argsRead_pairwise_lt i) hk hunwritten hbelow
  have hcheck : s.checkArgs i = .error (.unwritten k) := by simp only [State.checkArgs, hfirst]
  exact exec_of_checkArgs_error hctx hcheck

/-! ## The register window while BUSY = 1 -/

section

variable {s : State}

theorem State.storeReg_arg_busy (hbusy : s.busy = true) (i : Fin 5) (v : Word) :
    s.storeReg v (.arg i) = .refused .writeWhileBusy := if_pos hbusy

theorem State.storeReg_cmd_busy (hbusy : s.busy = true) (v : Word) :
    s.storeReg v .cmd = .refused .writeWhileBusy := if_pos hbusy

theorem State.readReg_status_busy (hbusy : s.busy = true) :
    s.readReg .status =
      (s.gotRead (statusWord (s.drawn.extractLsb' 0 4) true)).advanceDraw := if_pos hbusy

theorem State.readReg_result_busy (hbusy : s.busy = true) (hw : s.resw = true) :
    s.readReg .result = (s.gotRead s.drawn).advanceDraw := by
  simp [readReg, hbusy, hw]

end

/-- With BUSY = 1 the STATUS word is CODE and bit 8 (R33). -/
theorem statusWord_busy (c : BitVec 4) : statusWord c true = 0x100#32 ||| c.setWidth 32 :=
  BitVec.or_comm _ _

/-- Settles O43: five of the offsets are those of ARG0 to ARG4, the sixth is CMD's, and either store
is refused while BUSY = 1. -/
theorem argAndCmdWritesWhileBusyAreRefused : Obligations.ArgAndCmdWritesWhileBusyAreRefused := by
  refine ⟨fun s w v o hf hbase ho => ?_, fun s w v during hf => if_pos (State.busy_of_inFlight hf)⟩
  have hbusy := State.busy_of_inFlight hf
  rcases Nat.lt_or_eq_of_le ho with hlt | rfl
  · exact (hostAct_store_reg hbase (.arg ⟨o, hlt⟩) v).trans (State.storeReg_arg_busy hbusy _ v)
  · exact (hostAct_store_reg hbase .cmd v).trans (State.storeReg_cmd_busy hbusy v)

/-- Settles O44, by the window's load rule and what each register reads as while BUSY = 1; ARG and CMD
read as with BUSY = 0. -/
theorem readsWhileBusy : Obligations.ReadsWhileBusy := by
  intro s w hf hbase
  have hbusy := State.busy_of_inFlight hf
  refine ⟨⟨s.drawn.extractLsb' 0 4, _, hostAct_load_reg hbase .status, ?_⟩,
    fun hw => ⟨s.drawn, _, hostAct_load_reg hbase .result, ?_⟩,
    fun i hw => argWriteAndRead.2.1 s i hbase hw, fun i hw => argWriteAndRead.2.2 s i hbase hw,
    hostAct_load_reg hbase .cmd⟩
  · rw [State.readReg_status_busy hbusy, statusWord_busy]
    rfl
  · rw [State.readReg_result_busy hbusy hw]
    rfl

/-! ## The data memory while nothing is stored -/

/-- Only an ADIGESTB stores bytes (R41, R182). -/
theorem State.storing_eq_none_of_not_adigestb {s : State}
    (hrun : ∀ k, s.running ≠ some (.adigestb k)) (a : Nat) : s.storing a = none := by
  unfold storing
  split
  next k h => exact absurd h (hrun k)
  next => rfl

/-- Settles O50: an ADIGESTB that fails uses no byte (log 14), so it stores none; another command
stores none. -/
theorem memoryReadsWhileNothingIsStored : Obligations.MemoryReadsWhileNothingIsStored := by
  intro s w a hf hfails ha
  have hstoring : s.storing a = none := by
    by_cases hstore : ∃ k, s.running = some (.adigestb k)
    · obtain ⟨k, hk⟩ := hstore
      have hspan : usedSpan (.adigestb k) s = none :=
        usedSpan_of_fails (hfails k ((State.running_iff hf _).1 hk))
      refine State.storing_eq_none (State.inUse_of_usedSpan_none (fun i hi => ?_) a)
      cases hk.symm.trans hi
      exact hspan
    · exact State.storing_eq_none_of_not_adigestb (not_exists.1 hstore) a
  rw [hostAct_peek ha]
  simp only [State.peekByte, hstoring]
  rfl

/-! ## What the next command sees -/

theorem State.written_zero_writeArg (s : State) (v : Word) : (s.writeArg 0 v).written [0] := by
  simp [State.written]

/-- Settles O28: the table TBUILD leaves in its slot is the one TREAD looks up, and the SEED AUPDATE
leaves in its context is the one ADIGEST returns. -/
theorem effectsAreVisibleToTheNextCommand : Obligations.EffectsAreVisibleToTheNextCommand := by
  refine ⟨fun s n b hw h0 hn he => ?_, fun s a c tb bytes hw hc ht hr hv hb => ?_⟩
  · refine ⟨_, _, exec_tbuild_empty hw h0 hn he,
      treadReadsOneEntry.2.1 _ n _ b (State.written_zero_writeArg _ _)
        (s.slot_setSlot_same _ h0 hn) ?_, rfl, rfl⟩
    simp
  · have hupdate := exec_aupdate_view hw hc ht (State.view_ok hr hv)
    rw [State.bytesOf_viewSpan hb] at hupdate
    exact ⟨_, _, hupdate,
      exec_adigest_context (s.context_setContext_same _ (s.context_lt hc)), rfl, rfl⟩

/-! ## The end of a run -/

/-- What the host does after its last window access (R189). -/
theorem HostEvent.toWindow_eq_false_iff (e : HostEvent) :
    e.toWindow = false ↔
      e = .act .reset ∨ (∃ a, e = .act (.peek a)) ∨ ∃ a b, e = .act (.place a b) := by
  rcases e with (_ | _ | _ | _ | _) | _ <;> simp [toWindow]

/-- The window accesses: a load, a store, a CMD write (R189). -/
theorem HostEvent.toWindow_eq_true_iff (e : HostEvent) :
    e.toWindow = true ↔ (∃ a k, e = .act (.load a k)) ∨ (∃ a k v, e = .act (.store a k v)) ∨
      ∃ w d, e = .cmd w d := by
  rcases e with (_ | _ | _ | _ | _) | _ <;> simp [toWindow]

/-- A run goes on while a command is in flight or a window access is coming (R189). -/
theorem State.not_ended_iff (s : State) :
    ¬ s.ended ↔ s.inFlight ≠ none ∨ ∃ e ∈ s.pending, e.toWindow = true := by
  simp [State.ended, State.busy, or_comm, imp_iff_not_or]

/-- Settles O51: both clauses are `runEnd` at a state that is, and that is not, an end. -/
theorem runEndsAtTheLastWindowAccess : Obligations.RunEndsAtTheLastWindowAccess := by
  refine ⟨fun s n hidle hquiet => ?_, fun s n hgoes => ?_⟩
  · have hended : s.ended :=
      ⟨fun e he => e.toWindow_eq_false_iff.2 (hquiet e he), by simp [State.busy, hidle]⟩
    exact runEnd_of_ended hended n
  · have hgoes : ¬ s.ended := s.not_ended_iff.2 (by simpa only [HostEvent.toWindow_eq_true_iff])
    have hsucc := runEnd_succ_of_not_ended hgoes n
    refine ⟨runEnd_zero_of_not_ended hgoes, fun t ht => ?_, fun r hr => ?_, fun f hf => ?_⟩
    · rw [hsucc, ht]
    · rw [hsucc, hr]
    · rw [hsucc, hf]

/-- `s` with more actions coming after those that are. -/
def State.appendPending (s : State) (tail : List HostEvent) : State :=
  s.withPending (s.pending ++ tail)

/-- No action moves those behind it: `hostEvent_withPending`, at the list as it is. -/
theorem hostEvent_pending {s t : State} {e : HostEvent} (h : hostEvent s e = .next t) :
    t.pending = s.pending := by
  have hsame := hostEvent_withPending s s.pending e
  rw [s.withPending_self, h, mapPending_next] at hsame
  have ht : t = t.withPending s.pending := Host.Outcome.next.inj hsame
  rw [ht, State.withPending_pending]

/-- A step that takes an action is the same whatever comes after the actions that are coming. -/
theorem step_appendPending {s : State} (hne : s.pending ≠ []) (tail : List HostEvent) :
    (∀ t, step s = .next t → step (s.appendPending tail) = .next (t.appendPending tail)) ∧
    (∀ f, step s = .fault f → step (s.appendPending tail) = .fault f) ∧
    (∀ r, step s = .refused r → step (s.appendPending tail) = .refused r) := by
  obtain ⟨e, rest, hp⟩ := List.exists_cons_of_ne_nil hne
  have hmore : step (s.appendPending tail) = mapPending (rest ++ tail) (step s) := by
    have hpa : (s.appendPending tail).pending = e :: (rest ++ tail) := by
      rw [State.appendPending, State.withPending_pending, hp, List.cons_append]
    rw [step_cons hpa, step_cons hp]
    exact hostEvent_withPending (s.withPending rest) (rest ++ tail) e
  refine ⟨fun t h => ?_, fun f h => by rw [hmore, h]; rfl, fun r h => by rw [hmore, h]; rfl⟩
  have hrest : t.pending = rest := hostEvent_pending ((step_cons hp).symm.trans h)
  rw [hmore, h, mapPending_next, State.appendPending, hrest]

/-- Actions that are no window access do not decide whether the run has ended. -/
theorem State.ended_appendPending_iff (s : State) {tail : List HostEvent}
    (htail : ∀ e ∈ tail, e.toWindow = false) : (s.appendPending tail).ended ↔ s.ended := by
  have hpending : (∀ e ∈ s.pending ++ tail, e.toWindow = false) ↔
      ∀ e ∈ s.pending, e.toWindow = false := by
    rw [List.forall_mem_append]
    exact and_iff_left htail
  exact and_congr_left' hpending

/-- At its end a run needs no step, with the tail as without it. -/
theorem runEnd_appendPending_of_ended {s : State} (hend : s.ended) {tail : List HostEvent}
    (htail : ∀ e ∈ tail, e.toWindow = false) (n : Nat) :
    runEnd n (s.appendPending tail) = (runEnd n s).map (·.appendPending tail) := by
  rw [runEnd_of_ended hend, runEnd_of_ended ((s.ended_appendPending_iff htail).2 hend)]
  rfl

/-- With BUSY = 0 a run that has not ended has an action coming. -/
theorem State.pending_ne_nil_of_not_ended {s : State} (hidle : s.inFlight = none)
    (hend : ¬ s.ended) : s.pending ≠ [] := by
  intro hnil
  rcases s.not_ended_iff.1 hend with hflight | ⟨e, he, -⟩
  · exact hflight hidle
  · rw [hnil] at he
    cases he

/-- Settles O52, by induction on the number of steps: with the tail the run is at its end where it is
without it, and otherwise both take the same action (`step_appendPending`). -/
theorem actionsAfterTheLastWindowAccessDoNotMoveTheEnd :
    Obligations.ActionsAfterTheLastWindowAccessDoNotMoveTheEnd := by
  intro s n tail hidle htail
  change runEnd n (s.appendPending tail) = (runEnd n s).map (·.appendPending tail)
  induction n generalizing s with
  | zero =>
    by_cases hend : s.ended
    · exact runEnd_appendPending_of_ended hend htail 0
    · rw [runEnd_zero_of_not_ended hend,
        runEnd_zero_of_not_ended (mt (s.ended_appendPending_iff htail).1 hend)]
      rfl
  | succ n ih =>
    by_cases hend : s.ended
    · exact runEnd_appendPending_of_ended hend htail (n + 1)
    · obtain ⟨hnext, hfault, hrefused⟩ :=
        step_appendPending (State.pending_ne_nil_of_not_ended hidle hend) tail
      rw [runEnd_succ_of_not_ended hend,
        runEnd_succ_of_not_ended (mt (s.ended_appendPending_iff htail).1 hend)]
      cases h : step s with
      | next t =>
        rw [hnext t h]
        exact ih t (step_idle hidle h)
      | fault f =>
        rw [hfault f h]
        rfl
      | refused r =>
        rw [hrefused r h]
        rfl

end Sys2Proof.Machine
end
